-- ==== Sys2Proof/Word.lean ====
section
/-! DEFINITION. The bit-vector types of the machine: the widths of spec/00_scope.md R6 and
spec/10_state.md R20, R24. -/

namespace Sys2Proof

/-- One byte of memory (R50). -/
abbrev Byte := BitVec 8

/-- A register value or an address: XLEN is 64 (R6). -/
abbrev Word := BitVec 64

/-- An instruction word: ILEN is 32, fixed (R6, R90). -/
abbrev InstrWord := BitVec 32

/-- A register index: the `rd`, `rs1`, `rs2` fields have 5 bits, so every index names a register
that exists (R20). -/
abbrev RegIdx := BitVec 5

end Sys2Proof
end

