-- ==== Sys2Proof/Config.lean ====
section
/-! DEFINITION. What the source leaves open and the host fixes for a run: the configuration record
`cfg` (spec/00_scope.md R7, spec/10_state.md R30), and the values this model names for
`State.reset`. The machine has no opaque value: the spec decides every result, and every value it
leaves open is an argument of launch (Machine/Launch.lean). -/

namespace Sys2Proof

/-- The configuration record `cfg` (R30), written by the host at launch and constant for the whole
run. A program can neither read nor write it. `maxSteps` is by default `none` and `stop` by default
0 (R7). -/
structure Cfg where
  /-- `CODE_BASE`: address of the first byte of the code segment, and the entry point. -/
  codeBase : Word
  /-- `CODE_WORDS`: number of 32-bit words in the image. -/
  codeWords : Nat
  /-- `STACK_BASE`: address of the lowest byte of the stack segment. -/
  stackBase : Word
  /-- `STACK_SIZE`: stack capacity in bytes. -/
  stackSize : Nat
  /-- `CACHE_LINES` (`C`): number of cache lines. -/
  cacheLines : Nat
  /-- `MAX_STEPS`: bound on executed instructions, `none` for unbounded. -/
  maxSteps : Option Nat := none
  /-- `STOP`: the reserved pc value that ends the run. -/
  stop : Word := 0#64
  deriving DecidableEq, Repr

/-- The configuration of `State.reset`: the launch configuration of spec/95_test_vectors.md, with
the cache size of its program P1 (DESIGN CHOICE, log entry 1, unsafe) and an image of one word
(DESIGN CHOICE, log entry 5, unsafe). STOP and MAX_STEPS are the spec's defaults (R7). -/
def Config.resetCfg : Cfg where
  codeBase := 0x1000#64
  codeWords := 1
  stackBase := 0x8000#64
  stackSize := 0x100
  cacheLines := 8

/-- The value of `ARGS[0..3]` at `State.reset` (DESIGN CHOICE, log entry 1, unsafe). -/
def Config.resetArg : Word := 0#64

/-- The value at `State.reset` of a register launch leaves unspecified (R37, `INIT_REGS`): DESIGN
CHOICE, log entry 2, unsafe. -/
def Config.resetReg : Word := 0#64

/-- What a byte of memory that nothing has written reads as; so the launch contents of the stack
segment at `State.reset` (R37, `INIT_STACK`): DESIGN CHOICE, log entry 3, unsafe. -/
def Config.unlistedByte : Byte := 0#8

end Sys2Proof
end

