-- ==== Sys2Proof/Syntax.lean ====
section
/-! DEFINITION. The instructions as syntax: one constructor per row of spec/opcode_table.json
(spec/00_scope.md R3), the eight format classes (spec/30_encoding.md R101) and the field a
DecodeError names (R110). -/

namespace Sys2Proof

/-- The eight outcomes of `classify` (R101). -/
inductive Format where
  | r | r64 | iArith | iLoad | s | b | j | iJalr
  deriving DecidableEq, Repr

/-- The field a DecodeError names, with its content: 7, 3 or 7 bits (R110, R201). -/
inductive DecodeCause where
  | opcode (value : BitVec 7)
  | funct3 (value : BitVec 3)
  | funct7 (value : BitVec 7)
  deriving DecidableEq, Repr

/-- The 22 instructions. An immediate is the field as encoded (12 bits for the I and S layouts) or
the byte offset it stands for (13 bits for B, 21 bits for J, bit 0 included: DESIGN CHOICE, log
entry 9, safe). Fields the hardware does not examine (`srli` iw[31:25], `jalr` iw[14:12] and
iw[11:7], R112) are kept as operands, so that a word is recovered from its instruction (DESIGN
CHOICE, log entry 8, safe). -/
inductive Instr where
  -- class R (R102)
  | add (rd rs1 rs2 : RegIdx)
  | sub (rd rs1 rs2 : RegIdx)
  | mul (rd rs1 rs2 : RegIdx)
  | sll (rd rs1 rs2 : RegIdx)
  | srl (rd rs1 rs2 : RegIdx)
  | and (rd rs1 rs2 : RegIdx)
  -- class R64 (R103)
  | sllw (rd rs1 rs2 : RegIdx)
  | sraw (rd rs1 rs2 : RegIdx)
  -- class I-arith (R104)
  | addi (rd rs1 : RegIdx) (imm : BitVec 12)
  | srli (rd rs1 : RegIdx) (shamt : BitVec 5) (ignored : BitVec 7)
  -- class I-load (R105)
  | lb (rd rs1 : RegIdx) (imm : BitVec 12)
  | lw (rd rs1 : RegIdx) (imm : BitVec 12)
  | ld (rd rs1 : RegIdx) (imm : BitVec 12)
  -- class S (R106)
  | sb (rs2 rs1 : RegIdx) (imm : BitVec 12)
  | sw (rs2 rs1 : RegIdx) (imm : BitVec 12)
  | sd (rs2 rs1 : RegIdx) (imm : BitVec 12)
  -- class B (R107)
  | beq (rs1 rs2 : RegIdx) (offset : BitVec 13)
  | bne (rs1 rs2 : RegIdx) (offset : BitVec 13)
  | blt (rs1 rs2 : RegIdx) (offset : BitVec 13)
  | bge (rs1 rs2 : RegIdx) (offset : BitVec 13)
  -- classes J and I-jalr (R108)
  | jal (rd : RegIdx) (offset : BitVec 21)
  | jalr (rd : RegIdx) (funct3 : BitVec 3) (rs1 : RegIdx) (imm : BitVec 12)
  deriving DecidableEq, Repr

end Sys2Proof
end

