-- ==== Sys2Proof/Machine/State.lean ====
section
/-! DEFINITION. The state of the Machine as plain data (spec/10_state.md), the reasons a step can
stop, and the state right after reset (R37). -/

namespace Sys2Proof.Machine

/-! ### Pieces of the state -/

/-- The seven statistics counters, unbounded naturals (R27). -/
structure Counters where
  instructions : Nat
  arithmetic : Nat
  loads : Nat
  stores : Nat
  jumps : Nat
  branchesTaken : Nat
  branchesNotTaken : Nat
  deriving DecidableEq, Repr

/-- All seven counters 0, as launch leaves them (R37, R237). -/
def Counters.zero : Counters where
  instructions := 0
  arithmetic := 0
  loads := 0
  stores := 0
  jumps := 0
  branchesTaken := 0
  branchesNotTaken := 0

/-- Run status (R31); `stopped` and `failed` are terminal. -/
inductive Status where
  | running | stopped | failed
  deriving DecidableEq, Repr

/-- The kind of access a MemoryError names (R202). -/
inductive Access where
  | fetch | load | store
  deriving DecidableEq, Repr

/-- The reason a MemoryError names (R202). -/
inductive MemReason where
  | outOfRange | writeToCode | fetchOutsideCode | fetchMisaligned
  deriving DecidableEq, Repr

/-- The error record (R32): one of the three fatal error kinds with what it records (R201 to
R203). -/
inductive RunError where
  /-- R201: the offending field and its value, the whole word, its address. -/
  | decodeError (cause : DecodeCause) (iw : InstrWord) (pc : Word)
  /-- R202: the access, its address and width in bytes, the reason, the address of the instruction
  being executed. -/
  | memoryError (access : Access) (addr : Word) (n : Nat) (reason : MemReason) (pc : Word)
  /-- R203: the pc and the number of completed instructions. -/
  | stepLimitExceeded (pc : Word) (count : Nat)
  deriving DecidableEq, Repr

/-- One line of the instruction cache (R34). -/
structure CacheLine where
  tag : Word
  valid : Bool
  word : InstrWord
  deriving DecidableEq, Repr

/-- A line as launch leaves it at `State.reset`: not valid (R236); its tag and word are unspecified
and named 0 here (DESIGN CHOICE, log entry 4). -/
def CacheLine.reset : CacheLine where
  tag := 0#64
  valid := false
  word := 0#32

/-- One fetch event (R79, R135). -/
inductive FetchEvent where
  | hit (addr : Word)
  | miss (addr : Word)
  deriving DecidableEq, Repr

/-- Memory: the bytes that differ from `Config.unlistedByte`, addresses strictly rising. -/
abbrev Memory := List Host.Cell

/-! ### The state -/

/-- Everything that carries from one step to the next (R35), and the event trace the model puts
out. -/
structure State where
  /-- `x[0]` to `x[31]` (R20). Slot 0 is storage only: `getReg` reads register 0 as 0 and `setReg`
  never writes it (R21; log entry 13). -/
  regs : Vector Word 32
  /-- The program counter, a byte address (R24). -/
  pc : Word
  /-- The statistics counters (R27). -/
  cnt : Counters
  /-- The configuration record (R30). -/
  cfg : Cfg
  /-- The run status (R31). -/
  status : Status
  /-- The error record, valid only when `status` is `failed` (R32). -/
  err : Option RunError
  /-- The bytes of the two segments (R33). -/
  mem : Memory
  /-- The cache lines, `line[0]` first (R34). -/
  lines : List CacheLine
  /-- The fetch events of the run so far, newest first: an output of the model, read by no
  instruction (R79, R135; DESIGN CHOICE, log entry 7, safe). -/
  trace : List FetchEvent
  deriving DecidableEq, Repr

/-! ### Reasons to stop -/

/-- Why the machine answers no next state. -/
inductive Fault where
  /-- Raised by `step`, and by nothing else, in a state whose status is `stopped` or `failed`: both
  are terminal, and no step is taken from them (R31, R209). Safe: the hardware does not go on
  either. -/
  | runEnded (status : Status)
  deriving DecidableEq, Repr

/-- What the model gives no meaning to. -/
inductive Refusal where
  /-- Raised by an arm of `exec` for an instruction that has no meaning yet. Safe. No arm raises it
  in this model. -/
  | notModelled (mnemonic : String)
  /-- Raised by `launch` for a configuration that breaks a constraint of R7: it is not a
  configuration of this hardware, and the model refuses it (R7, D27, U8). Safe. -/
  | badConfiguration
  /-- Raised by `relaunch` in a state whose status is `running`: a launch is accepted only when the
  status is not Running (R132). Safe. -/
  | launchWhileRunning
  deriving DecidableEq, Repr

/-- What a step or a meaning answers. -/
abbrev StepOutcome := Host.Outcome State Fault Refusal

/-! ### Reset -/

/-- The registers launch sets (R233, R234, R235), the others at `Config.resetReg`. -/
def resetRegs : Vector Word 32 :=
  let c := Config.resetCfg
  ((((((Vector.replicate 32 Config.resetReg).set 0 0#64).set 1 c.stop).set 2
    (c.stackBase + BitVec.ofNat 64 c.stackSize)).set 10 Config.resetArg).set 11
    Config.resetArg).set 12 Config.resetArg |>.set 13 Config.resetArg

/-- The machine right after reset: the launch state (R37) of the configuration `Config.resetCfg`,
with nothing listed in memory. No program is loaded: the one image word is all zeros (log entry
5). -/
def State.reset : State where
  regs := resetRegs
  pc := Config.resetCfg.codeBase
  cnt := Counters.zero
  cfg := Config.resetCfg
  status := .running
  err := none
  mem := []
  lines := List.replicate Config.resetCfg.cacheLines CacheLine.reset
  trace := []

end Sys2Proof.Machine
end

