-- ==== Sys2Proof/Machine/Ops.lean ====
section
/-! DEFINITION. The named operations over registers, memory, counters and status: the register
file (spec/10_state.md R20, R21), the MemoryRegion (spec/20_memory.md R50 to R64), the count stage
(spec/40_fetch_and_step.md R128) and raising an error (spec/60_exceptions.md R207). -/

namespace Sys2Proof.Machine

/-! ### Registers -/

/-- `x[i]`: register 0 always reads 0 (R9, R21). -/
def getReg (i : RegIdx) (s : State) : Word :=
  if i = 0#5 then 0#64 else s.regs[i.toNat]'i.isLt

/-- `x[i] <- v`: discarded when `i = 0` (R9, R21). -/
def setReg (i : RegIdx) (v : Word) (s : State) : State :=
  if i = 0#5 then s else { s with regs := s.regs.set i.toNat v i.isLt }

/-! ### Bytes of memory -/

/-- The canonical form of memory: addresses strictly rising, and no entry equal to what an unlisted
address reads as. -/
abbrev Memory.wf (m : Memory) : Prop :=
  m.Pairwise (fun c d => c.1 < d.1) ∧ ∀ c ∈ m, c.2 ≠ Config.unlistedByte

/-- `byte[a]`. -/
def readByte : Memory → Nat → Byte
  | [], _ => Config.unlistedByte
  | (b, v) :: m, a => if a = b then v else readByte m a

/-- `byte[a] <- v`, keeping the canonical form. -/
def writeByte : Memory → Nat → Byte → Memory
  | [], a, v => if v = Config.unlistedByte then [] else [(a, v)]
  | (b, u) :: m, a, v =>
    if a < b then
      if v = Config.unlistedByte then (b, u) :: m else (a, v) :: (b, u) :: m
    else if a = b then
      if v = Config.unlistedByte then m else (a, v) :: m
    else (b, u) :: writeByte m a v

/-- The little-endian composition of the `n` bytes at `a`, an unsigned number: the sum of
`byte[a + k] << (8*k)` (R54, R60). -/
def readBytes (m : Memory) (a : Nat) : Nat → Nat
  | 0 => 0
  | n + 1 => (readByte m a).toNat + 256 * readBytes m (a + 1) n

/-- `byte[a + k] <- v[8*k+7 : 8*k]` for the `n` bytes at `a` (R54, R61). -/
def writeBytes (m : Memory) (a : Nat) (n : Nat) (v : Word) : Memory :=
  match n with
  | 0 => m
  | n + 1 => writeBytes (writeByte m a (v.extractLsb' 0 8)) (a + 1) n (v >>> 8)

/-! ### Segments and bounds -/

/-- `InCode(a, n)`, with `a + n` a natural number (R57). -/
def inCode (c : Cfg) (a n : Nat) : Bool :=
  decide (c.codeBase.toNat ≤ a) && decide (a + n ≤ c.codeBase.toNat + 4 * c.codeWords)

/-- `InStack(a, n)`, with `a + n` a natural number (R57). -/
def inStack (c : Cfg) (a n : Nat) : Bool :=
  decide (c.stackBase.toNat ≤ a) && decide (a + n ≤ c.stackBase.toNat + c.stackSize)

/-- `MemRead(addr, n)`: an unsigned `8n`-bit value, or a MemoryError (R60). -/
def memRead (s : State) (addr : Word) (n : Nat) : Except RunError Nat :=
  if inCode s.cfg addr.toNat n || inStack s.cfg addr.toNat n then
    .ok (readBytes s.mem addr.toNat n)
  else .error (.memoryError .load addr n .outOfRange s.pc)

/-- `MemWrite(addr, n, v)`: the state with the `n` bytes written, or a MemoryError and no byte
written (R58, R61). The cache is not touched (R82). -/
def memWrite (s : State) (addr : Word) (n : Nat) (v : Word) : Except RunError State :=
  if inCode s.cfg addr.toNat n then .error (.memoryError .store addr n .writeToCode s.pc)
  else if inStack s.cfg addr.toNat n then
    .ok { s with mem := writeBytes s.mem addr.toNat n v }
  else .error (.memoryError .store addr n .outOfRange s.pc)

/-! ### Counting and completing -/

/-- The class counter an instruction increments when it completes (R27, R128). -/
inductive CountClass where
  | arithmetic | load | store | jump | branchTaken | branchNotTaken
  deriving DecidableEq, Repr

/-- The count stage: `cnt.instructions` and the one class counter (R128). -/
def count (k : CountClass) (c : Counters) : Counters :=
  match k with
  | .arithmetic => { c with instructions := c.instructions + 1, arithmetic := c.arithmetic + 1 }
  | .load => { c with instructions := c.instructions + 1, loads := c.loads + 1 }
  | .store => { c with instructions := c.instructions + 1, stores := c.stores + 1 }
  | .jump => { c with instructions := c.instructions + 1, jumps := c.jumps + 1 }
  | .branchTaken =>
    { c with instructions := c.instructions + 1, branchesTaken := c.branchesTaken + 1 }
  | .branchNotTaken =>
    { c with instructions := c.instructions + 1, branchesNotTaken := c.branchesNotTaken + 1 }

/-- The end of a handler that has not failed: the pc write, then the count stage (R127, R128). -/
def complete (k : CountClass) (newPc : Word) (s : State) : State :=
  { s with pc := newPc, cnt := count k s.cnt }

/-- The address of the instruction that follows in memory, modulo 2^64 (R24, R25). -/
def nextPc (s : State) : Word := s.pc + 4#64

/-! ### Raising an error -/

/-- `raise E`, applied to the state as it was at the start of the execute stage: the status becomes
Failed and the error record holds `e`; registers, pc, memory, counters and configuration keep their
values, and a cache fill made by this step's fetch, with its event, stays (R121, R207). Nothing
else happens: no handler, no saved register, no mode (R208). There is no return from an error and
no instruction that returns (R209): the one way on is a new launch (Machine/Launch.lean). -/
def raise (e : RunError) (s : State) : State :=
  { s with status := .failed, err := some e }

/-- The code of an error kind, for tables only (R200). -/
def RunError.code : RunError → Nat
  | .decodeError _ _ _ => 1
  | .memoryError _ _ _ _ _ => 2
  | .stepLimitExceeded _ _ => 3

end Sys2Proof.Machine
end

