-- ==== Sys2Proof/Machine/Operands.lean ====
section
/-! DEFINITION. Operand forms: extension of immediates and of loaded values (spec/00_scope.md R9,
spec/30_encoding.md R97 to R100), shift amounts, and the one addressing mode
(spec/44_loads.md R160, spec/45_stores.md R170). -/

namespace Sys2Proof.Machine

/-- `sext_N(v)`: bits 63 to `N` all equal `v[N-1]` (R9). -/
def sext {n : Nat} (v : BitVec n) : Word := v.signExtend 64

/-- `x[rs2][5:0]`: the amount of `sll` and `srl`, 0 to 63 (R144, R145). -/
def shiftAmount6 (v : Word) : Nat := (v.extractLsb' 0 6).toNat

/-- `x[rs2][4:0]`: the amount of `sllw` and `sraw`, 0 to 31 (R150). -/
def shiftAmount5 (v : Word) : Nat := (v.extractLsb' 0 5).toNat

/-- `sext_32(v[31:0])` (R152). -/
def sextWord (v : Word) : Word := sext (v.extractLsb' 0 32)

/-- `ea = (x[rs1] + sext_12(imm)) mod 2^64`: base plus displacement, for loads and stores (R160,
R170). -/
def effectiveAddress (rs1 : RegIdx) (imm : BitVec 12) (s : State) : Word :=
  getReg rs1 s + sext imm

/-- The target of a taken branch or a `jal`: the instruction's own address plus the offset, modulo
2^64 (R180, R190). -/
def relativeTarget {n : Nat} (offset : BitVec n) (s : State) : Word := s.pc + sext offset

/-- The target of `jalr`: the sum with bit 0 cleared (R191). -/
def jalrTarget (rs1 : RegIdx) (imm : BitVec 12) (s : State) : Word :=
  (getReg rs1 s + sext imm) &&& 0xFFFFFFFFFFFFFFFE#64

/-- `sext_8` of a byte read (R161). -/
def extendByte (v : Nat) : Word := sext (BitVec.ofNat 8 v)

/-- `sext_32` of a word read (R162). -/
def extendWord (v : Nat) : Word := sext (BitVec.ofNat 32 v)

/-- A doubleword read needs no extension (R163). -/
def extendDouble (v : Nat) : Word := BitVec.ofNat 64 v

end Sys2Proof.Machine
end

