-- ==== Sys2Proof/Machine/Flags.lean ====
section
/-! DEFINITION. There are no flags or condition codes (spec/10_state.md R29): a branch compares two
register values directly. These are the four conditions (spec/46_branches.md R181 to R184). -/

namespace Sys2Proof.Machine

/-- `beq`: all 64 bits equal (R181). -/
def condEq (a b : Word) : Bool := a == b

/-- `bne`: any of the 64 bits differs (R182). -/
def condNe (a b : Word) : Bool := !(a == b)

/-- `blt`: `signed(a) < signed(b)` (R183). -/
def condLt (a b : Word) : Bool := decide (a.toInt < b.toInt)

/-- `bge`: `signed(a) >= signed(b)` (R184). -/
def condGe (a b : Word) : Bool := decide (b.toInt ≤ a.toInt)

end Sys2Proof.Machine
end

