-- ==== Sys2Proof/Machine/Branches.lean ====
section
/-! DEFINITION. Class B: beq, bne, blt, bge (spec/46_branches.md). -/

namespace Sys2Proof.Machine

/-- The branch handler (R180): taken, the pc is the branch's own address plus the offset; not taken,
`pc + 4`; exactly one of the two branch counters is incremented. -/
def branch (taken : Bool) (offset : BitVec 13) (s : State) : StepOutcome :=
  if taken then .next (complete .branchTaken (relativeTarget offset s) s)
  else .next (complete .branchNotTaken (nextPc s) s)

/-- `beq rs1, rs2, offset` (R181). -/
def execBeq (rs1 rs2 : RegIdx) (offset : BitVec 13) (s : State) : StepOutcome :=
  branch (condEq (getReg rs1 s) (getReg rs2 s)) offset s

/-- `bne rs1, rs2, offset` (R182). -/
def execBne (rs1 rs2 : RegIdx) (offset : BitVec 13) (s : State) : StepOutcome :=
  branch (condNe (getReg rs1 s) (getReg rs2 s)) offset s

/-- `blt rs1, rs2, offset` (R183). -/
def execBlt (rs1 rs2 : RegIdx) (offset : BitVec 13) (s : State) : StepOutcome :=
  branch (condLt (getReg rs1 s) (getReg rs2 s)) offset s

/-- `bge rs1, rs2, offset` (R184). -/
def execBge (rs1 rs2 : RegIdx) (offset : BitVec 13) (s : State) : StepOutcome :=
  branch (condGe (getReg rs1 s) (getReg rs2 s)) offset s

end Sys2Proof.Machine
end

