-- ==== Sys2Proof/Machine/RArith.lean ====
section
/-! DEFINITION. Class R: add, sub, mul, sll, srl, and (spec/41_r_arith.md), over the operation that
every register-writing arithmetic instruction ends in. -/

namespace Sys2Proof.Machine

/-- The end of an arithmetic handler: `x[rd] <- r`, then `pc <- pc + 4`, then the count stage with
`cnt.arithmetic` (R140, R150, R155). -/
def writeResult (rd : RegIdx) (r : Word) (s : State) : StepOutcome :=
  .next (complete .arithmetic (nextPc s) (setReg rd r s))

/-- `add rd, rs1, rs2` (R141). -/
def execAdd (rd rs1 rs2 : RegIdx) (s : State) : StepOutcome :=
  writeResult rd (getReg rs1 s + getReg rs2 s) s

/-- `sub rd, rs1, rs2` (R142). -/
def execSub (rd rs1 rs2 : RegIdx) (s : State) : StepOutcome :=
  writeResult rd (getReg rs1 s - getReg rs2 s) s

/-- `mul rd, rs1, rs2`: the low 64 bits of the product (R143). -/
def execMul (rd rs1 rs2 : RegIdx) (s : State) : StepOutcome :=
  writeResult rd (getReg rs1 s * getReg rs2 s) s

/-- `sll rd, rs1, rs2`: zeros enter at bit 0 (R144). -/
def execSll (rd rs1 rs2 : RegIdx) (s : State) : StepOutcome :=
  writeResult rd (getReg rs1 s <<< shiftAmount6 (getReg rs2 s)) s

/-- `srl rd, rs1, rs2`: zeros enter at bit 63 (R145). -/
def execSrl (rd rs1 rs2 : RegIdx) (s : State) : StepOutcome :=
  writeResult rd (getReg rs1 s >>> shiftAmount6 (getReg rs2 s)) s

/-- `and rd, rs1, rs2` (R146). -/
def execAnd (rd rs1 rs2 : RegIdx) (s : State) : StepOutcome :=
  writeResult rd (getReg rs1 s &&& getReg rs2 s) s

end Sys2Proof.Machine
end

