-- ==== Sys2Proof/Machine/IArith.lean ====
section
/-! DEFINITION. Class I-arith: addi, srli (spec/43_i_arith.md). -/

namespace Sys2Proof.Machine

/-- `addi rd, rs1, imm` (R156). -/
def execAddi (rd rs1 : RegIdx) (imm : BitVec 12) (s : State) : StepOutcome :=
  writeResult rd (getReg rs1 s + sext imm) s

/-- `srli rd, rs1, shamt`: a logical shift by the five bits iw[24:20]; iw[31:25] is ignored (R157,
C4). -/
def execSrli (rd rs1 : RegIdx) (shamt : BitVec 5) (_ignored : BitVec 7) (s : State) :
    StepOutcome :=
  writeResult rd (getReg rs1 s >>> shamt.toNat) s

end Sys2Proof.Machine
end

