-- ==== Sys2Proof/Machine/Jumps.lean ====
section
/-! DEFINITION. Classes J and I-jalr: jal, jalr, and the linkage (spec/47_jumps.md). -/

namespace Sys2Proof.Machine

/-- The end of a jump: the link value `pc + 4` into register `link`, then `pc <- target`, then the
count stage with `cnt.jumps` (R190, R191). The target is not checked (R193). -/
def jump (link : RegIdx) (target : Word) (s : State) : StepOutcome :=
  .next (complete .jump target (setReg link (nextPc s) s))

/-- `jal rd, offset` (R190). -/
def execJal (rd : RegIdx) (offset : BitVec 21) (s : State) : StepOutcome :=
  jump rd (relativeTarget offset s) s

/-- `jalr rd, imm(rs1)`: the target comes from the old `x[rs1]`, and the link value is written into
`rs1`, not into `rd`; `rd` and `funct3` are ignored (R191, C5). -/
def execJalr (_rd : RegIdx) (_funct3 : BitVec 3) (rs1 : RegIdx) (imm : BitVec 12) (s : State) :
    StepOutcome :=
  jump rs1 (jalrTarget rs1 imm s) s

end Sys2Proof.Machine
end

