-- ==== Sys2Proof/Machine/Loads.lean ====
section
/-! DEFINITION. Class I-load: lb, lw, ld (spec/44_loads.md). -/

namespace Sys2Proof.Machine

/-- The load handler (R160): read `n` bytes at the effective address, extend, write `x[rd]`, then
`pc <- pc + 4` and the count stage. The access is made, and can fail, even when `rd = 0`. -/
def load (n : Nat) (extend : Nat → Word) (rd rs1 : RegIdx) (imm : BitVec 12) (s : State) :
    StepOutcome :=
  match memRead s (effectiveAddress rs1 imm s) n with
  | .ok v => .next (complete .load (nextPc s) (setReg rd (extend v) s))
  | .error e => .next (raise e s)

/-- `lb rd, imm(rs1)` (R161). -/
def execLb (rd rs1 : RegIdx) (imm : BitVec 12) (s : State) : StepOutcome :=
  load 1 extendByte rd rs1 imm s

/-- `lw rd, imm(rs1)` (R162). -/
def execLw (rd rs1 : RegIdx) (imm : BitVec 12) (s : State) : StepOutcome :=
  load 4 extendWord rd rs1 imm s

/-- `ld rd, imm(rs1)` (R163). -/
def execLd (rd rs1 : RegIdx) (imm : BitVec 12) (s : State) : StepOutcome :=
  load 8 extendDouble rd rs1 imm s

end Sys2Proof.Machine
end

