-- ==== Sys2Proof/Machine/RWord.lean ====
section
/-! DEFINITION. Class R64: sllw, sraw (spec/42_r64_word.md). -/

namespace Sys2Proof.Machine

/-- `sllw rd, rs1, rs2`: all 64 bits are shifted and kept; only the amount is five bits (R151,
C2). -/
def execSllw (rd rs1 rs2 : RegIdx) (s : State) : StepOutcome :=
  writeResult rd (getReg rs1 s <<< shiftAmount5 (getReg rs2 s)) s

/-- `sraw rd, rs1, rs2`: the sign-extended low word, shifted arithmetically (R152). -/
def execSraw (rd rs1 rs2 : RegIdx) (s : State) : StepOutcome :=
  writeResult rd ((sextWord (getReg rs1 s)).sshiftRight (shiftAmount5 (getReg rs2 s))) s

end Sys2Proof.Machine
end

