-- ==== Sys2Proof/Machine/Stores.lean ====
section
/-! DEFINITION. Class S: sb, sw, sd (spec/45_stores.md). -/

namespace Sys2Proof.Machine

/-- The store handler (R170): write the low `n` bytes of `x[rs2]` at the effective address, then
`pc <- pc + 4` and the count stage. -/
def store (n : Nat) (rs2 rs1 : RegIdx) (imm : BitVec 12) (s : State) : StepOutcome :=
  match memWrite s (effectiveAddress rs1 imm s) n (getReg rs2 s) with
  | .ok s' => .next (complete .store (nextPc s) s')
  | .error e => .next (raise e s)

/-- `sb rs2, imm(rs1)` (R171). -/
def execSb (rs2 rs1 : RegIdx) (imm : BitVec 12) (s : State) : StepOutcome :=
  store 1 rs2 rs1 imm s

/-- `sw rs2, imm(rs1)` (R172). -/
def execSw (rs2 rs1 : RegIdx) (imm : BitVec 12) (s : State) : StepOutcome :=
  store 4 rs2 rs1 imm s

/-- `sd rs2, imm(rs1)` (R173). -/
def execSd (rs2 rs1 : RegIdx) (imm : BitVec 12) (s : State) : StepOutcome :=
  store 8 rs2 rs1 imm s

end Sys2Proof.Machine
end

