-- ==== Sys2Proof/Machine/BitField.lean ====
section
/-! DEFINITION. The three pure BitField functions of spec/00_scope.md R10 to R13, and the
fixed-width field the decoder extracts with them. Outside its stated domain a function refuses
(`none`): spec/93_implementation_defined.md U2 for extractBits and testBit; log entry 14 for
signExtend. -/

namespace Sys2Proof.Machine.BitField

/-- `extractBits(word, start, count)`: the `count`-bit unsigned field starting at bit `start`, for
`1 <= count <= 32` and `start + count <= 64` (R10). -/
def extractBits (word : BitVec 64) (start count : Nat) : Option Nat :=
  if 1 ≤ count ∧ count ≤ 32 ∧ start + count ≤ 64 then
    some ((word.toNat >>> start) % 2 ^ count)
  else none

/-- `signExtend(word, signBitIndex)`: shift the sign bit to position 63, then shift back
arithmetically by the same distance (R11, the document's implementation note), for an index 0 to
63. -/
def signExtend (word : BitVec 64) (signBitIndex : Nat) : Option (BitVec 64) :=
  if signBitIndex ≤ 63 then
    some ((word <<< (63 - signBitIndex)).sshiftRight (63 - signBitIndex))
  else none

/-- `testBit(word, index)`, for an index 0 to 63 (R12). -/
def testBit (word : BitVec 64) (index : Nat) : Option Bool :=
  if index ≤ 63 then some (word.getLsbD index) else none

/-- `iw[start+count-1 : start]` of an instruction word, at its own width (R8). -/
def field (iw : InstrWord) (start count : Nat) : BitVec count :=
  iw.extractLsb' start count

end Sys2Proof.Machine.BitField
end

