-- ==== Sys2Proof/Decode.lean ====
section
/-! DEFINITION. The Decoder block: fields (spec/30_encoding.md R91), immediate assembly (R97 to
R100), classification (R101), selection within a class (R102 to R108), the field a DecodeError
names (R110); then the encoder, written from the five layouts (R92 to R96) and the same tables. -/

namespace Sys2Proof

open Sys2Proof.Machine.BitField (field)

/-! ### Fields (R91) -/

/-- `opcode = iw[6:0]`. -/
def fieldOpcode (iw : InstrWord) : BitVec 7 := field iw 0 7
/-- `rd = iw[11:7]`. -/
def fieldRd (iw : InstrWord) : RegIdx := field iw 7 5
/-- `funct3 = iw[14:12]`. -/
def fieldFunct3 (iw : InstrWord) : BitVec 3 := field iw 12 3
/-- `rs1 = iw[19:15]`. -/
def fieldRs1 (iw : InstrWord) : RegIdx := field iw 15 5
/-- `rs2 = iw[24:20]`. -/
def fieldRs2 (iw : InstrWord) : RegIdx := field iw 20 5
/-- `funct7 = iw[31:25]`. -/
def fieldFunct7 (iw : InstrWord) : BitVec 7 := field iw 25 7

/-! ### Immediates, before sign extension -/

/-- `imm[11:0] = iw[31:20]` (R97). -/
def immI (iw : InstrWord) : BitVec 12 := field iw 20 12

/-- `iw[31:25] << 5 | iw[11:7]` (R98). -/
def immS (iw : InstrWord) : BitVec 12 := field iw 25 7 ++ field iw 7 5

/-- `iw[31] << 12 | iw[7] << 11 | iw[30:25] << 5 | iw[11:8] << 1` (R99). -/
def immB (iw : InstrWord) : BitVec 13 :=
  field iw 31 1 ++ field iw 7 1 ++ field iw 25 6 ++ field iw 8 4 ++ 0#1

/-- `iw[31] << 20 | iw[19:12] << 12 | iw[20] << 11 | iw[30:21] << 1` (R100). -/
def immJ (iw : InstrWord) : BitVec 21 :=
  field iw 31 1 ++ field iw 12 8 ++ field iw 20 1 ++ field iw 21 10 ++ 0#1

/-! ### Opcodes (R101) -/

/-- The opcode value of each class (R101). -/
def Format.opcode : Format → BitVec 7
  | .r => 0b0110011#7
  | .r64 => 0b0111011#7
  | .iArith => 0b0010011#7
  | .iLoad => 0b0000011#7
  | .s => 0b0100011#7
  | .b => 0b1100011#7
  | .j => 0b1101111#7
  | .iJalr => 0b1100111#7

/-- `classify(word)`: the class its opcode selects, none for an opcode outside the set (R101). -/
def classify (iw : InstrWord) : Option Format :=
  let op := fieldOpcode iw
  if op = Format.r.opcode then some .r
  else if op = Format.r64.opcode then some .r64
  else if op = Format.iArith.opcode then some .iArith
  else if op = Format.iLoad.opcode then some .iLoad
  else if op = Format.s.opcode then some .s
  else if op = Format.b.opcode then some .b
  else if op = Format.j.opcode then some .j
  else if op = Format.iJalr.opcode then some .iJalr
  else none

/-! ### Selection within a class -/

/-- What the decoder answers on a word: an instruction, or the field a DecodeError names (R109,
R110). -/
inductive Decoded where
  | instr (i : Instr)
  | illegal (cause : DecodeCause)
  deriving DecidableEq, Repr

/-- Class R, by funct3 then funct7 (R102, R110). -/
def decodeR (iw : InstrWord) : Decoded :=
  let rd := fieldRd iw
  let rs1 := fieldRs1 iw
  let rs2 := fieldRs2 iw
  let f3 := fieldFunct3 iw
  let f7 := fieldFunct7 iw
  if f3 = 0b000#3 then
    if f7 = 0b0000000#7 then .instr (.add rd rs1 rs2)
    else if f7 = 0b0100000#7 then .instr (.sub rd rs1 rs2)
    else if f7 = 0b0000001#7 then .instr (.mul rd rs1 rs2)
    else .illegal (.funct7 f7)
  else if f3 = 0b001#3 then
    if f7 = 0b0000000#7 then .instr (.sll rd rs1 rs2) else .illegal (.funct7 f7)
  else if f3 = 0b101#3 then
    if f7 = 0b0000000#7 then .instr (.srl rd rs1 rs2) else .illegal (.funct7 f7)
  else if f3 = 0b111#3 then
    if f7 = 0b0000000#7 then .instr (.and rd rs1 rs2) else .illegal (.funct7 f7)
  else .illegal (.funct3 f3)

/-- Class R64, by funct3 then funct7 (R103, R110). -/
def decodeR64 (iw : InstrWord) : Decoded :=
  let rd := fieldRd iw
  let rs1 := fieldRs1 iw
  let rs2 := fieldRs2 iw
  let f3 := fieldFunct3 iw
  let f7 := fieldFunct7 iw
  if f3 = 0b001#3 then
    if f7 = 0b0000000#7 then .instr (.sllw rd rs1 rs2) else .illegal (.funct7 f7)
  else if f3 = 0b101#3 then
    if f7 = 0b0100000#7 then .instr (.sraw rd rs1 rs2) else .illegal (.funct7 f7)
  else .illegal (.funct3 f3)

/-- Class I-arith, by funct3 alone (R104). -/
def decodeIArith (iw : InstrWord) : Decoded :=
  let f3 := fieldFunct3 iw
  if f3 = 0b000#3 then .instr (.addi (fieldRd iw) (fieldRs1 iw) (immI iw))
  else if f3 = 0b101#3 then
    .instr (.srli (fieldRd iw) (fieldRs1 iw) (field iw 20 5) (field iw 25 7))
  else .illegal (.funct3 f3)

/-- Class I-load, by funct3 (R105). -/
def decodeILoad (iw : InstrWord) : Decoded :=
  let f3 := fieldFunct3 iw
  if f3 = 0b000#3 then .instr (.lb (fieldRd iw) (fieldRs1 iw) (immI iw))
  else if f3 = 0b010#3 then .instr (.lw (fieldRd iw) (fieldRs1 iw) (immI iw))
  else if f3 = 0b011#3 then .instr (.ld (fieldRd iw) (fieldRs1 iw) (immI iw))
  else .illegal (.funct3 f3)

/-- Class S, by funct3 (R106). -/
def decodeS (iw : InstrWord) : Decoded :=
  let f3 := fieldFunct3 iw
  if f3 = 0b000#3 then .instr (.sb (fieldRs2 iw) (fieldRs1 iw) (immS iw))
  else if f3 = 0b010#3 then .instr (.sw (fieldRs2 iw) (fieldRs1 iw) (immS iw))
  else if f3 = 0b011#3 then .instr (.sd (fieldRs2 iw) (fieldRs1 iw) (immS iw))
  else .illegal (.funct3 f3)

/-- Class B, by funct3 (R107). -/
def decodeB (iw : InstrWord) : Decoded :=
  let f3 := fieldFunct3 iw
  if f3 = 0b000#3 then .instr (.beq (fieldRs1 iw) (fieldRs2 iw) (immB iw))
  else if f3 = 0b001#3 then .instr (.bne (fieldRs1 iw) (fieldRs2 iw) (immB iw))
  else if f3 = 0b100#3 then .instr (.blt (fieldRs1 iw) (fieldRs2 iw) (immB iw))
  else if f3 = 0b101#3 then .instr (.bge (fieldRs1 iw) (fieldRs2 iw) (immB iw))
  else .illegal (.funct3 f3)

/-- Class J: selected by the opcode alone (R108). -/
def decodeJ (iw : InstrWord) : Decoded :=
  .instr (.jal (fieldRd iw) (immJ iw))

/-- Class I-jalr: selected by the opcode alone; funct3 and rd are not examined (R108, R191). -/
def decodeIJalr (iw : InstrWord) : Decoded :=
  .instr (.jalr (fieldRd iw) (fieldFunct3 iw) (fieldRs1 iw) (immI iw))

/-- `decode(iw)`: a pure function of the 32 bits (R126). -/
def decode (iw : InstrWord) : Decoded :=
  match classify iw with
  | some .r => decodeR iw
  | some .r64 => decodeR64 iw
  | some .iArith => decodeIArith iw
  | some .iLoad => decodeILoad iw
  | some .s => decodeS iw
  | some .b => decodeB iw
  | some .j => decodeJ iw
  | some .iJalr => decodeIJalr iw
  | none => .illegal (.opcode (fieldOpcode iw))

/-! ### Bytes -/

/-- The word of four bytes, the byte at the lowest address in bits 7 to 0 (R54, R90). -/
def wordOfBytes (b0 b1 b2 b3 : Byte) : InstrWord := b3 ++ b2 ++ b1 ++ b0

/-- Decode the instruction at the head of a list of bytes, lowest address first, and give the bytes
after it; `none` when fewer than four bytes are left. -/
def decodeBytes : List Byte → Option (Decoded × List Byte)
  | b0 :: b1 :: b2 :: b3 :: rest => some (decode (wordOfBytes b0 b1 b2 b3), rest)
  | _ => none

/-- The four bytes of a word, lowest address first (R54). -/
def bytesOfWord (iw : InstrWord) : List Byte :=
  [iw.extractLsb' 0 8, iw.extractLsb' 8 8, iw.extractLsb' 16 8, iw.extractLsb' 24 8]

/-- The word of an opcode-table row: `nbits` bits of `w`, every bit above them 0. -/
def tableWord (nbits w : Nat) : InstrWord := BitVec.ofNat 32 (w % 2 ^ nbits)

/-- The instruction the decoder reads from an opcode-table word laid out as the hardware stores
it. -/
def decodeTableWord (nbits w : Nat) : Option Instr :=
  match decodeBytes (bytesOfWord (tableWord nbits w)) with
  | some (.instr i, _) => some i
  | _ => none

/-! ### The encoder -/

/-- R layout (R92): funct7, rs2, rs1, funct3, rd, opcode. -/
def rWord (f7 : BitVec 7) (rs2 rs1 : RegIdx) (f3 : BitVec 3) (rd : RegIdx) (op : BitVec 7) :
    InstrWord :=
  f7 ++ rs2 ++ rs1 ++ f3 ++ rd ++ op

/-- I layout (R93): imm[11:0], rs1, funct3, rd, opcode. -/
def iWord (imm : BitVec 12) (rs1 : RegIdx) (f3 : BitVec 3) (rd : RegIdx) (op : BitVec 7) :
    InstrWord :=
  imm ++ rs1 ++ f3 ++ rd ++ op

/-- S layout (R94): imm[11:5], rs2, rs1, funct3, imm[4:0], opcode. -/
def sWord (imm : BitVec 12) (rs2 rs1 : RegIdx) (f3 : BitVec 3) (op : BitVec 7) : InstrWord :=
  imm.extractLsb' 5 7 ++ rs2 ++ rs1 ++ f3 ++ imm.extractLsb' 0 5 ++ op

/-- B layout (R95): imm[12], imm[10:5], rs2, rs1, funct3, imm[4:1], imm[11], opcode. -/
def bWord (offset : BitVec 13) (rs2 rs1 : RegIdx) (f3 : BitVec 3) (op : BitVec 7) : InstrWord :=
  offset.extractLsb' 12 1 ++ offset.extractLsb' 5 6 ++ rs2 ++ rs1 ++ f3 ++
    offset.extractLsb' 1 4 ++ offset.extractLsb' 11 1 ++ op

/-- J layout (R96): imm[20], imm[10:1], imm[11], imm[19:12], rd, opcode. -/
def jWord (offset : BitVec 21) (rd : RegIdx) (op : BitVec 7) : InstrWord :=
  offset.extractLsb' 20 1 ++ offset.extractLsb' 1 10 ++ offset.extractLsb' 11 1 ++
    offset.extractLsb' 12 8 ++ rd ++ op

/-- The class of an instruction (R101). -/
def Instr.format : Instr → Format
  | .add _ _ _ => .r
  | .sub _ _ _ => .r
  | .mul _ _ _ => .r
  | .sll _ _ _ => .r
  | .srl _ _ _ => .r
  | .and _ _ _ => .r
  | .sllw _ _ _ => .r64
  | .sraw _ _ _ => .r64
  | .addi _ _ _ => .iArith
  | .srli _ _ _ _ => .iArith
  | .lb _ _ _ => .iLoad
  | .lw _ _ _ => .iLoad
  | .ld _ _ _ => .iLoad
  | .sb _ _ _ => .s
  | .sw _ _ _ => .s
  | .sd _ _ _ => .s
  | .beq _ _ _ => .b
  | .bne _ _ _ => .b
  | .blt _ _ _ => .b
  | .bge _ _ _ => .b
  | .jal _ _ => .j
  | .jalr _ _ _ _ => .iJalr

/-- The word of an instruction (R92 to R96 with the values of R101 to R108). -/
def encode : Instr → InstrWord
  | .add rd rs1 rs2 => rWord 0b0000000#7 rs2 rs1 0b000#3 rd 0b0110011#7
  | .sub rd rs1 rs2 => rWord 0b0100000#7 rs2 rs1 0b000#3 rd 0b0110011#7
  | .mul rd rs1 rs2 => rWord 0b0000001#7 rs2 rs1 0b000#3 rd 0b0110011#7
  | .sll rd rs1 rs2 => rWord 0b0000000#7 rs2 rs1 0b001#3 rd 0b0110011#7
  | .srl rd rs1 rs2 => rWord 0b0000000#7 rs2 rs1 0b101#3 rd 0b0110011#7
  | .and rd rs1 rs2 => rWord 0b0000000#7 rs2 rs1 0b111#3 rd 0b0110011#7
  | .sllw rd rs1 rs2 => rWord 0b0000000#7 rs2 rs1 0b001#3 rd 0b0111011#7
  | .sraw rd rs1 rs2 => rWord 0b0100000#7 rs2 rs1 0b101#3 rd 0b0111011#7
  | .addi rd rs1 imm => iWord imm rs1 0b000#3 rd 0b0010011#7
  | .srli rd rs1 shamt ignored => rWord ignored shamt rs1 0b101#3 rd 0b0010011#7
  | .lb rd rs1 imm => iWord imm rs1 0b000#3 rd 0b0000011#7
  | .lw rd rs1 imm => iWord imm rs1 0b010#3 rd 0b0000011#7
  | .ld rd rs1 imm => iWord imm rs1 0b011#3 rd 0b0000011#7
  | .sb rs2 rs1 imm => sWord imm rs2 rs1 0b000#3 0b0100011#7
  | .sw rs2 rs1 imm => sWord imm rs2 rs1 0b010#3 0b0100011#7
  | .sd rs2 rs1 imm => sWord imm rs2 rs1 0b011#3 0b0100011#7
  | .beq rs1 rs2 offset => bWord offset rs2 rs1 0b000#3 0b1100011#7
  | .bne rs1 rs2 offset => bWord offset rs2 rs1 0b001#3 0b1100011#7
  | .blt rs1 rs2 offset => bWord offset rs2 rs1 0b100#3 0b1100011#7
  | .bge rs1 rs2 offset => bWord offset rs2 rs1 0b101#3 0b1100011#7
  | .jal rd offset => jWord offset rd 0b1101111#7
  | .jalr rd funct3 rs1 imm => iWord imm rs1 funct3 rd 0b1100111#7

end Sys2Proof
end

