-- ==== Sys2Proof/Machine/Fetch.lean ====
section
/-! DEFINITION. The InstructionCache (spec/20_memory.md R70 to R82) and the front of a step: the
checks, the fetch and the decode (spec/40_fetch_and_step.md R121, lines 1 to 5). -/

namespace Sys2Proof.Machine

/-! ### The cache -/

/-- `index = (addr >> 2) mod C` (R71). -/
def lineIndex (c : Cfg) (addr : Word) : Nat := (addr.toNat >>> 2) % c.cacheLines

/-- A hit: the indexed line is valid and its tag is the whole address (R71, R72). No line at the
index (only in a state no launch leads to) is a miss (log entry 10). -/
def lookup (s : State) (addr : Word) : Option InstrWord :=
  match s.lines[lineIndex s.cfg addr]? with
  | some l => if l.valid && l.tag == addr then some l.word else none
  | none => none

/-- Allocate on a miss: overwrite the one line the index selects (R73). -/
def fillLine (s : State) (addr : Word) (iw : InstrWord) : State :=
  { s with
    lines := s.lines.set (lineIndex s.cfg addr) { tag := addr, valid := true, word := iw } }

/-- `emit`: put one event into the run trace (R79, R135). -/
def emit (e : FetchEvent) (s : State) : State := { s with trace := e :: s.trace }

/-- The 32-bit word the four bytes at `a` compose (R54, R74). -/
def codeWord (m : Memory) (a : Nat) : InstrWord := BitVec.ofNat 32 (readBytes m a 4)

/-- What a fetch answers: a word and the state after the fetch, or an error. -/
inductive Fetched where
  | word (iw : InstrWord) (s : State)
  | error (e : RunError)
  deriving DecidableEq, Repr

/-- `FetchWord(addr)`, `addr` already known to be a multiple of 4 (R74). The bounds are tested on a
miss only, and a failed fetch changes no line and emits no event (R76). -/
def fetchWord (addr : Word) (s : State) : Fetched :=
  match lookup s addr with
  | some iw => .word iw (emit (.hit addr) s)
  | none =>
    if inCode s.cfg addr.toNat 4 then
      let iw := codeWord s.mem addr.toNat
      .word iw (fillLine (emit (.miss addr) s) addr iw)
    else .error (.memoryError .fetch addr 4 .fetchOutsideCode s.pc)

/-! ### The front of a step -/

/-- The step limit is reached: `MAX_STEPS` is a number and `cnt.instructions >= MAX_STEPS` (R124). -/
def limitReached (s : State) : Bool :=
  match s.cfg.maxSteps with
  | some n => decide (n ≤ s.cnt.instructions)
  | none => false

/-- The pc is a multiple of 4 (R26, R68). -/
def aligned (a : Word) : Bool := a.toNat % 4 == 0

/-- What the front of a step answers: the step is over, or an instruction is ready to execute in the
state after its fetch. -/
inductive Front where
  | over (o : StepOutcome)
  | ready (i : Instr) (s : State)

/-- The decode stage (R126): an illegal word is a DecodeError, raised after the fetch and before any
register is read (R201). -/
def decodeStage (iw : InstrWord) (s : State) : Front :=
  match decode iw with
  | .instr i => .ready i s
  | .illegal cause => .over (.next (raise (.decodeError cause iw s.pc) s))

/-- The fetch stage (R125). -/
def fetchStage (s : State) : Front :=
  match fetchWord s.pc s with
  | .word iw s' => decodeStage iw s'
  | .error e => .over (.next (raise e s))

/-- Lines 1 to 5 of R121, from a state that is Running: the STOP check (R123), the step limit
(R124), the alignment of the pc (R26), the fetch, the decode. -/
def runningFront (s : State) : Front :=
  if s.pc = s.cfg.stop then .over (.next { s with status := .stopped })
  else if limitReached s then
    .over (.next (raise (.stepLimitExceeded s.pc s.cnt.instructions) s))
  else if aligned s.pc then fetchStage s
  else .over (.next (raise (.memoryError .fetch s.pc 4 .fetchMisaligned s.pc) s))

/-- The front of a step from any state: from Stopped and Failed no step is taken (R31). -/
def front (s : State) : Front :=
  match s.status with
  | .running => runningFront s
  | .stopped => .over (.fault (.runEnded .stopped))
  | .failed => .over (.fault (.runEnded .failed))

end Sys2Proof.Machine
end

