-- ==== Sys2Proof/Machine/Launch.lean ====
section
/-! DEFINITION. The host's two transactions: launch, which is this hardware's reset
(spec/70_reset_and_hazards.md R230 to R238, spec/40_fetch_and_step.md R132, spec/10_state.md R37),
and reading the result (R129, R133); and placing one word where the next fetch reads. -/

namespace Sys2Proof.Machine

/-! ### Launch -/

/-- What the launch transaction carries (R132), and the values launch leaves unspecified (R37,
`INIT_REGS`, `INIT_STACK`, the tags and words of the cache lines), as arguments. -/
structure LaunchArgs where
  /-- `CODE_BASE`, `CODE_WORDS`, `STACK_BASE`, `STACK_SIZE`, `CACHE_LINES`, `MAX_STEPS`, `STOP`. -/
  cfg : Cfg
  /-- `IMAGE[0 .. CODE_WORDS-1]`. -/
  image : List InstrWord
  /-- `ARGS[0..3]`. -/
  args : Vector Word 4
  /-- `INIT_REGS`: the registers launch does not set; the entries of the others are not read. -/
  initRegs : Vector Word 32
  /-- `INIT_STACK`: the stack bytes from `STACK_BASE` up; a byte it does not list is
  `Config.unlistedByte`, and bytes past `STACK_SIZE` are dropped (log entry 3). -/
  initStack : List Byte
  /-- The lines before `init()`: their tags and words stay, whatever they are (R75); a line it does
  not list is `CacheLine.reset`. -/
  initLines : List CacheLine
  deriving DecidableEq, Repr

/-- A power of two, at least 1. -/
def isPowerOfTwo (n : Nat) : Bool := n != 0 && 2 ^ n.log2 == n

/-- The constraints of R7 on a configuration. -/
def cfgValid (c : Cfg) : Bool :=
  let codeEnd := c.codeBase.toNat + 4 * c.codeWords
  let stackEnd := c.stackBase.toNat + c.stackSize
  aligned c.codeBase && decide (1 ≤ c.codeWords) && decide (codeEnd ≤ 2 ^ 64) &&
    decide (1 ≤ c.stackSize) && decide (stackEnd < 2 ^ 64) &&
    (decide (codeEnd ≤ c.stackBase.toNat) || decide (stackEnd ≤ c.codeBase.toNat)) &&
    isPowerOfTwo c.cacheLines && aligned c.stop &&
    (decide (c.stop.toNat < c.codeBase.toNat) || decide (codeEnd ≤ c.stop.toNat))

/-- The registers after launch (R233, R234, R235; R37). -/
def launchRegs (p : LaunchArgs) : Vector Word 32 :=
  ((((((p.initRegs.set 0 0#64).set 1 p.cfg.stop).set 2
    (p.cfg.stackBase + BitVec.ofNat 64 p.cfg.stackSize)).set 10 p.args[0]).set 11
    p.args[1]).set 12 p.args[2]).set 13 p.args[3]

/-- Place the image: word `IMAGE[k]` at `CODE_BASE + 4k`, little-endian (R37, R51, R54). -/
def placeImage (m : Memory) (a : Nat) : List InstrWord → Memory
  | [] => m
  | iw :: rest => placeImage (writeBytes m a 4 (iw.setWidth 64)) (a + 4) rest

/-- Place a list of bytes from address `a` up. -/
def placeBytes (m : Memory) (a : Nat) : List Byte → Memory
  | [] => m
  | b :: rest => placeBytes (writeByte m a b) (a + 1) rest

/-- The memory after launch: the image and the stack contents, nothing else (R37, R230). -/
def launchMem (p : LaunchArgs) : Memory :=
  placeBytes (placeImage [] p.cfg.codeBase.toNat p.image) p.cfg.stackBase.toNat
    (p.initStack.take p.cfg.stackSize)

/-- `init()`: `CACHE_LINES` lines, every `valid` cleared, tags and words as they were (R75,
R236). -/
def initCache (count : Nat) (before : List CacheLine) : List CacheLine :=
  (List.range count).map fun i => { before.getD i CacheLine.reset with valid := false }

/-- The launch state (R37). -/
def launchState (p : LaunchArgs) : State where
  regs := launchRegs p
  pc := p.cfg.codeBase
  cnt := Counters.zero
  cfg := p.cfg
  status := .running
  err := none
  mem := launchMem p
  lines := initCache p.cfg.cacheLines p.initLines
  trace := []

/-- Launch (R230): the launch state, or a refusal of a configuration that breaks a constraint of R7
or an image that has not `CODE_WORDS` words. -/
def launch (p : LaunchArgs) : StepOutcome :=
  if cfgValid p.cfg && p.image.length == p.cfg.codeWords then .next (launchState p)
  else .refused .badConfiguration

/-- The launch transaction on a Machine: accepted only when its status is not Running, and then
nothing of its state survives (R132, R230). -/
def relaunch (s : State) (p : LaunchArgs) : StepOutcome :=
  match s.status with
  | .running => .refused .launchWhileRunning
  | .stopped => launch p
  | .failed => launch p

/-- The launch whose state is `State.reset` (log entries 1 to 5). -/
def resetArgs : LaunchArgs where
  cfg := Config.resetCfg
  image := [0#32]
  args := Vector.replicate 4 Config.resetArg
  initRegs := Vector.replicate 32 Config.resetReg
  initStack := []
  initLines := []

/-! ### The result -/

/-- What the result interface delivers (R129, R133). -/
structure RunResult where
  status : Status
  /-- The return value `x[10]`, only when Stopped. -/
  value : Option Word
  counters : Counters
  /-- The error record, only when Failed. -/
  err : Option RunError
  deriving DecidableEq, Repr

/-- The result, valid only when the status is Stopped or Failed (R133). -/
def result (s : State) : Option RunResult :=
  match s.status with
  | .running => none
  | .stopped => some ⟨.stopped, some (getReg 10#5 s), s.cnt, none⟩
  | .failed => some ⟨.failed, none, s.cnt, s.err⟩

/-- The fetch events of the run in program order (R135). -/
def events (s : State) : List FetchEvent := s.trace.reverse

/-! ### Placing one word -/

/-- The line that would answer a fetch at `addr` with an older word is no longer valid. -/
def dropLine (s : State) (addr : Word) : List CacheLine :=
  s.lines.modify (lineIndex s.cfg addr) fun l =>
    if l.tag == addr then { l with valid := false } else l

/-- The word stored at the pc, as a loader stores it (R54), and no cached word at that address: what
a launch with this word in the image would leave there (log entry 5). -/
def placeWord (s : State) (iw : InstrWord) : State :=
  { s with
    mem := writeBytes s.mem s.pc.toNat 4 (iw.setWidth 64)
    lines := dropLine s s.pc }

end Sys2Proof.Machine
end

