-- ==== Sys2Proof/Machine/Step.lean ====
section
/-! DEFINITION. One step of the run loop (spec/40_fetch_and_step.md R121): the front of the step
(Machine/Fetch.lean), then the execute and count stages (Machine/Dispatch.lean). -/

namespace Sys2Proof.Machine

/-- One step (R121). An error is a next state whose status is Failed (R207; log entry 6). -/
def step (s : State) : Host.Outcome State Fault Refusal :=
  match front s with
  | .over o => o
  | .ready i s' => exec i s'

/-- The state with one opcode-table word stored where the next fetch reads (log entry 5). -/
def State.withFetchWord (s : State) (nbits w : Nat) : State := placeWord s (tableWord nbits w)

end Sys2Proof.Machine
end

