-- ==== Sys2Proof/WellFormed.lean ====
section
/-! DEFINITION. Which instruction terms an encoding admits. Every register index, immediate and
shift amount of the right width is encodable; the one condition is that B and J offsets are even
(spec/30_encoding.md R99, R100: bit 0 is implicitly absent from the encoding). -/

namespace Sys2Proof

/-- The term stands for some instruction word. -/
def Instr.wellFormed : Instr → Bool
  | .add _ _ _ => true
  | .sub _ _ _ => true
  | .mul _ _ _ => true
  | .sll _ _ _ => true
  | .srl _ _ _ => true
  | .and _ _ _ => true
  | .sllw _ _ _ => true
  | .sraw _ _ _ => true
  | .addi _ _ _ => true
  | .srli _ _ _ _ => true
  | .lb _ _ _ => true
  | .lw _ _ _ => true
  | .ld _ _ _ => true
  | .sb _ _ _ => true
  | .sw _ _ _ => true
  | .sd _ _ _ => true
  | .beq _ _ offset => !offset.getLsbD 0
  | .bne _ _ offset => !offset.getLsbD 0
  | .blt _ _ offset => !offset.getLsbD 0
  | .bge _ _ offset => !offset.getLsbD 0
  | .jal _ offset => !offset.getLsbD 0
  | .jalr _ _ _ _ => true

end Sys2Proof
end

