-- ==== Sys2Proof/Safety.lean ====
section
/-! DEFINITION. The terms claims are stated in: what a completed instruction leaves, the invariants
of the machine, and how a run ends. -/

namespace Sys2Proof.Safety

open Sys2Proof.Machine

/-! ### What a completed instruction leaves -/

/-- The register values after `x[rd] <- v` from state `s` (R21). -/
def written (s : State) (rd : RegIdx) (v : Word) : RegIdx → Word := fun r =>
  if r = rd ∧ rd ≠ 0#5 then v else getReg r s

/-- The register values of `s`: no register written. -/
def sameRegs (s : State) : RegIdx → Word := fun r => getReg r s

/-- The memory bytes of `s`: no byte written. -/
def sameBytes (s : State) : Nat → Byte := fun a => readByte s.mem a

/-- The memory bytes after the low `n` bytes of `v` are stored at `ea`, little-endian (R54, R61). -/
def stored (s : State) (ea n : Nat) (v : Word) : Nat → Byte := fun a =>
  if ea ≤ a ∧ a < ea + n then v.extractLsb' (8 * (a - ea)) 8 else readByte s.mem a

/-- The counters after one more completed arithmetic instruction (R27). -/
def oneArithmetic (c : Counters) : Counters :=
  { c with instructions := c.instructions + 1, arithmetic := c.arithmetic + 1 }

/-- The counters after one more completed load (R27). -/
def oneLoad (c : Counters) : Counters :=
  { c with instructions := c.instructions + 1, loads := c.loads + 1 }

/-- The counters after one more completed store (R27). -/
def oneStore (c : Counters) : Counters :=
  { c with instructions := c.instructions + 1, stores := c.stores + 1 }

/-- The counters after one more completed jump (R27). -/
def oneJump (c : Counters) : Counters :=
  { c with instructions := c.instructions + 1, jumps := c.jumps + 1 }

/-- The counters after one more completed branch (R27, R180). -/
def oneBranch (taken : Bool) (c : Counters) : Counters :=
  if taken then
    { c with instructions := c.instructions + 1, branchesTaken := c.branchesTaken + 1 }
  else
    { c with instructions := c.instructions + 1, branchesNotTaken := c.branchesNotTaken + 1 }

/-- The whole effect of an instruction that completes in `t` from `s`: every register, the pc, the
counters and every byte of memory as given, and nothing else changed. -/
structure Effect (s t : State) (regs : RegIdx → Word) (pc : Word) (cnt : Counters)
    (bytes : Nat → Byte) : Prop where
  regs_eq : ∀ r, getReg r t = regs r
  pc_eq : t.pc = pc
  cnt_eq : t.cnt = cnt
  bytes_eq : ∀ a, readByte t.mem a = bytes a
  cfg_eq : t.cfg = s.cfg
  status_eq : t.status = s.status
  err_eq : t.err = s.err
  lines_eq : t.lines = s.lines
  trace_eq : t.trace = s.trace

/-- The outcome is a next state with this effect. -/
def Completes (o : StepOutcome) (s : State) (regs : RegIdx → Word) (pc : Word) (cnt : Counters)
    (bytes : Nat → Byte) : Prop :=
  ∃ t, o = .next t ∧ Effect s t regs pc cnt bytes

/-- The outcome is the state `s` with the run failed on `e` and nothing else changed (R207). -/
def FailsWith (o : StepOutcome) (s : State) (e : RunError) : Prop :=
  o = .next { s with status := .failed, err := some e }

/-- An access of `n` bytes lies wholly in one segment, so that a load of them succeeds (R57). -/
def Loadable (s : State) (ea : Word) (n : Nat) : Prop :=
  inCode s.cfg ea.toNat n = true ∨ inStack s.cfg ea.toNat n = true

/-- An access of `n` bytes lies wholly in the stack segment and not in the code segment, so that a
store to them succeeds (R61). -/
def Storable (s : State) (ea : Word) (n : Nat) : Prop :=
  inCode s.cfg ea.toNat n = false ∧ inStack s.cfg ea.toNat n = true

/-! ### What an instruction names -/

/-- The register an instruction writes (R23): `jalr` writes `rs1`, stores and branches none. -/
def destination : Instr → Option RegIdx
  | .add rd _ _ => some rd
  | .sub rd _ _ => some rd
  | .mul rd _ _ => some rd
  | .sll rd _ _ => some rd
  | .srl rd _ _ => some rd
  | .and rd _ _ => some rd
  | .sllw rd _ _ => some rd
  | .sraw rd _ _ => some rd
  | .addi rd _ _ => some rd
  | .srli rd _ _ _ => some rd
  | .lb rd _ _ => some rd
  | .lw rd _ _ => some rd
  | .ld rd _ _ => some rd
  | .sb _ _ _ => none
  | .sw _ _ _ => none
  | .sd _ _ _ => none
  | .beq _ _ _ => none
  | .bne _ _ _ => none
  | .blt _ _ _ => none
  | .bge _ _ _ => none
  | .jal rd _ => some rd
  | .jalr _ _ rs1 _ => some rs1

/-- The registers an instruction reads (R23). -/
def sources : Instr → List RegIdx
  | .add _ rs1 rs2 => [rs1, rs2]
  | .sub _ rs1 rs2 => [rs1, rs2]
  | .mul _ rs1 rs2 => [rs1, rs2]
  | .sll _ rs1 rs2 => [rs1, rs2]
  | .srl _ rs1 rs2 => [rs1, rs2]
  | .and _ rs1 rs2 => [rs1, rs2]
  | .sllw _ rs1 rs2 => [rs1, rs2]
  | .sraw _ rs1 rs2 => [rs1, rs2]
  | .addi _ rs1 _ => [rs1]
  | .srli _ rs1 _ _ => [rs1]
  | .lb _ rs1 _ => [rs1]
  | .lw _ rs1 _ => [rs1]
  | .ld _ rs1 _ => [rs1]
  | .sb rs2 rs1 _ => [rs1, rs2]
  | .sw rs2 rs1 _ => [rs1, rs2]
  | .sd rs2 rs1 _ => [rs1, rs2]
  | .beq rs1 rs2 _ => [rs1, rs2]
  | .bne rs1 rs2 _ => [rs1, rs2]
  | .blt rs1 rs2 _ => [rs1, rs2]
  | .bge rs1 rs2 _ => [rs1, rs2]
  | .jal _ _ => []
  | .jalr _ _ rs1 _ => [rs1]

/-- The instructions that set the pc to a computed target whenever they run (R190, R191). -/
def jumps : Instr → Bool
  | .add _ _ _ => false
  | .sub _ _ _ => false
  | .mul _ _ _ => false
  | .sll _ _ _ => false
  | .srl _ _ _ => false
  | .and _ _ _ => false
  | .sllw _ _ _ => false
  | .sraw _ _ _ => false
  | .addi _ _ _ => false
  | .srli _ _ _ _ => false
  | .lb _ _ _ => false
  | .lw _ _ _ => false
  | .ld _ _ _ => false
  | .sb _ _ _ => false
  | .sw _ _ _ => false
  | .sd _ _ _ => false
  | .beq _ _ _ => false
  | .bne _ _ _ => false
  | .blt _ _ _ => false
  | .bge _ _ _ => false
  | .jal _ _ => true
  | .jalr _ _ _ _ => true

/-! ### Legal encodings -/

/-- The funct3 values of a class (R102 to R107); J and I-jalr do not examine the field (R108). -/
def legalFunct3 : Format → List (BitVec 3)
  | .r => [0b000#3, 0b001#3, 0b101#3, 0b111#3]
  | .r64 => [0b001#3, 0b101#3]
  | .iArith => [0b000#3, 0b101#3]
  | .iLoad => [0b000#3, 0b010#3, 0b011#3]
  | .s => [0b000#3, 0b010#3, 0b011#3]
  | .b => [0b000#3, 0b001#3, 0b100#3, 0b101#3]
  | .j => [0, 1, 2, 3, 4, 5, 6, 7]
  | .iJalr => [0, 1, 2, 3, 4, 5, 6, 7]

/-- The (funct3, funct7) pairs of the two classes that examine funct7 (R102, R103). -/
def legalPairs : Format → Option (List (BitVec 3 × BitVec 7))
  | .r => some [(0b000#3, 0b0000000#7), (0b000#3, 0b0100000#7), (0b000#3, 0b0000001#7),
      (0b001#3, 0b0000000#7), (0b101#3, 0b0000000#7), (0b111#3, 0b0000000#7)]
  | .r64 => some [(0b001#3, 0b0000000#7), (0b101#3, 0b0100000#7)]
  | .iArith => none
  | .iLoad => none
  | .s => none
  | .b => none
  | .j => none
  | .iJalr => none

/-- The class with this opcode, by the table of R101. -/
def classOf (op : BitVec 7) : Option Format :=
  [Format.r, .r64, .iArith, .iLoad, .s, .b, .j, .iJalr].find? fun f => f.opcode == op

/-- The field a DecodeError names, in the order of R110, or `none` for one of the 22
instructions. -/
def offendingField (iw : InstrWord) : Option DecodeCause :=
  match classOf (fieldOpcode iw) with
  | none => some (.opcode (fieldOpcode iw))
  | some f =>
    if fieldFunct3 iw ∈ legalFunct3 f then
      match legalPairs f with
      | some ps => if (fieldFunct3 iw, fieldFunct7 iw) ∈ ps then none else some (.funct7 (fieldFunct7 iw))
      | none => none
    else some (.funct3 (fieldFunct3 iw))

/-! ### One step -/

/-- The step from `s` reaches its fetch and the pc lies in the code segment: Running, not at STOP,
below the step limit, aligned, inside (R121 lines 1 to 4). -/
structure ReadyToFetch (s : State) : Prop where
  running : s.status = .running
  not_stop : s.pc ≠ s.cfg.stop
  below_limit : ∀ n, s.cfg.maxSteps = some n → s.cnt.instructions < n
  aligned : s.pc.toNat % 4 = 0
  inside : inCode s.cfg s.pc.toNat 4 = true

/-- The state after the fetch of a step: one event, and on a miss the indexed line filled (R72 to
R74, R79). -/
def fetched (s : State) : State :=
  match lookup s s.pc with
  | some _ => { s with trace := .hit s.pc :: s.trace }
  | none =>
    { s with
      trace := .miss s.pc :: s.trace
      lines := s.lines.set (lineIndex s.cfg s.pc)
        { tag := s.pc, valid := true, word := codeWord s.mem s.pc.toNat } }

/-! ### Invariants -/

/-- The seven counters balance (R28). -/
def CountersBalance (c : Counters) : Prop :=
  c.instructions =
    c.arithmetic + c.loads + c.stores + c.jumps + c.branchesTaken + c.branchesNotTaken

/-- The error record is valid exactly when the status is Failed (R32). -/
def ErrorIffFailed (s : State) : Prop := s.status = .failed ↔ s.err ≠ none

/-- Never more completed instructions than `MAX_STEPS` (R124). -/
def WithinLimit (s : State) : Prop := ∀ n, s.cfg.maxSteps = some n → s.cnt.instructions ≤ n

/-- The pc is even: offsets are even and `jalr` clears bit 0 (C3, R193). -/
def PcEven (s : State) : Prop := s.pc.toNat % 2 = 0

/-- Memory is in its canonical form and lists bytes of the two segments only (R33, R53). -/
def MemoryInSegments (s : State) : Prop :=
  Memory.wf s.mem ∧
    ∀ c ∈ s.mem, inCode s.cfg c.1 1 = true ∨ inStack s.cfg c.1 1 = true

/-- The coherence of one cache line (R77). -/
def LineCoherent (s : State) (i : Nat) (l : CacheLine) : Prop :=
  l.valid = true →
    l.tag.toNat % 4 = 0 ∧ inCode s.cfg l.tag.toNat 4 = true ∧ lineIndex s.cfg l.tag = i ∧
      l.word = codeWord s.mem l.tag.toNat

/-- Two addresses collide: they differ and share a line (R71). -/
def Collide (c : Cfg) (a b : Word) : Prop := a ≠ b ∧ lineIndex c a = lineIndex c b

/-- The cache has `CACHE_LINES` lines and every valid line holds the code word at its tag (R34,
R77). -/
def CacheCoherent (s : State) : Prop :=
  s.lines.length = s.cfg.cacheLines ∧ ∀ i l, s.lines[i]? = some l → LineCoherent s i l

/-- One fetch event per completed instruction, and at most one more for a step that failed after
its fetch (R135). -/
def TraceCounts (s : State) : Prop :=
  (s.status ≠ .failed → s.trace.length = s.cnt.instructions) ∧
    s.cnt.instructions ≤ s.trace.length ∧ s.trace.length ≤ s.cnt.instructions + 1

/-- The invariant of the machine: what holds after every launch and is kept by every step. -/
structure Invariant (s : State) : Prop where
  cfg_valid : cfgValid s.cfg = true
  memory : MemoryInSegments s
  cache : CacheCoherent s
  counters : CountersBalance s.cnt
  err_iff : ErrorIffFailed s
  limit : WithinLimit s
  pc_even : PcEven s
  trace : TraceCounts s

/-! ### Runs -/

/-- The address `a` lies in the code segment (R51). -/
def InCodeSegment (c : Cfg) (a : Nat) : Prop := inCode c a 1 = true

/-- Everything the source's programs can observe is the same: registers, pc, counters, status, error
record, every byte of memory, and the configuration but for `CACHE_LINES` (R78). -/
structure SameArchitecture (s t : State) : Prop where
  regs_eq : ∀ r, getReg r s = getReg r t
  pc_eq : s.pc = t.pc
  cnt_eq : s.cnt = t.cnt
  status_eq : s.status = t.status
  err_eq : s.err = t.err
  bytes_eq : ∀ a, readByte s.mem a = readByte t.mem a
  cfg_eq : { s.cfg with cacheLines := t.cfg.cacheLines } = t.cfg

/-- Two outcomes agree: both next states of the same architecture, or the same fault. -/
def SameOutcome : StepOutcome → StepOutcome → Prop
  | .next s, .next t => SameArchitecture s t
  | .fault f, .fault g => f = g
  | .refused f, .refused g => f = g
  | _, _ => False

/-- The run from `s` ends normally with result `v`: some number of steps reaches a state whose result
interface delivers Stopped and the return value `v` (R129, R130, R133). -/
def EndsNormally (s : State) (v : Word) : Prop :=
  ∃ k t, Host.Core.run core k s = .next t ∧ result t = some ⟨.stopped, some v, t.cnt, none⟩

/-- The run from `s` ends within `n` steps: a state that is not Running is reached (R122). -/
def RunEndsWithin (n : Nat) (s : State) : Prop :=
  ∃ k t, k ≤ n ∧ Host.Core.run core k s = .next t ∧ t.status ≠ .running

end Sys2Proof.Safety
end

