-- ==== Sys2Proof/Certificates/Slice0/Obligations.lean ====
section
/-! DEFINITION. The statements for the provers, from the numbered rules of spec/. A statement that
rests on a decision the spec marks as its own (`Dn`) or on a log entry says so. The base opcodes
(D2) are such a decision too; they stand as plain words in the rules R141 to R191, which the
statements about the instructions formalise. -/

open Sys2Proof Sys2Proof.Machine Sys2Proof.Safety

/-! ### Encoding -/

/-- The decoder gives back every well-formed instruction from its word: no bit of an operand is
dropped (30_encoding R92 to R108; the base opcodes are the spec's own decision D2). -/
def Obligations.DecodeOfEncode : Prop :=
  ∀ i : Instr, i.wellFormed = true → decode (encode i) = .instr i

/-- Every word the decoder accepts is the word of the instruction it answers, and that instruction is
well formed: the words and the instructions correspond one to one (30_encoding R109, R112). -/
def Obligations.EncodeOfDecode : Prop :=
  ∀ (iw : InstrWord) (i : Instr), decode iw = .instr i → i.wellFormed = true ∧ encode i = iw

/-- Words written out bit by bit in 95_test_vectors section 2.3, one of each layout and class. -/
def Obligations.SampleWordsDecode : Prop :=
  decode 0b0100000_00111_00110_000_00101_0110011#32 = .instr (.sub 5 6 7) ∧
  decode 0b0100000_00111_00110_101_00101_0111011#32 = .instr (.sraw 5 6 7) ∧
  decode 0b111111111111_00110_000_00101_0010011#32 = .instr (.addi 5 6 0xFFF) ∧
  decode 0b000000001000_00010_010_00101_0000011#32 = .instr (.lw 5 2 8) ∧
  decode 0b1111111_00111_00110_000_11111_0100011#32 = .instr (.sb 7 6 0xFFF) ∧
  decode 0b1_111111_00110_00101_000_1100_1_1100011#32 = .instr (.beq 5 6 (-8)) ∧
  decode 0b1_1111111010_1_11111111_00000_1101111#32 = .instr (.jal 0 (-12)) ∧
  decode 0b111111111100_00101_000_00001_1100111#32 = .instr (.jalr 1 0 5 (-4))

/-- A word is one of the 22 instructions or illegal, and an illegal word is named by its opcode, else
its funct3, else its funct7 (30_encoding R109, R110; the order is the spec's own decision D16). -/
def Obligations.IllegalWordsNameTheirField : Prop :=
  ∀ iw : InstrWord,
    (∀ cause, offendingField iw = some cause → decode iw = .illegal cause) ∧
    (offendingField iw = none → ∃ i, decode iw = .instr i)

/-- R97 to R100: the four immediates, assembled from the bits the table names and sign-extended at
the index it gives, with their ranges, the evenness of B and J, and an offset of 2 modulo 4 in
each. -/
def Obligations.ImmediatesAreAssembled : Prop :=
  (∀ iw : InstrWord,
    let bits (hi lo : Nat) : Nat := (iw.toNat >>> lo) % 2 ^ (hi - lo + 1)
    BitField.signExtend (BitVec.ofNat 64 (bits 31 20)) 11 = some (sext (immI iw)) ∧
    BitField.signExtend (BitVec.ofNat 64 (bits 31 25 <<< 5 ||| bits 11 7)) 11 =
      some (sext (immS iw)) ∧
    BitField.signExtend (BitVec.ofNat 64
        (bits 31 31 <<< 12 ||| bits 7 7 <<< 11 ||| bits 30 25 <<< 5 ||| bits 11 8 <<< 1)) 12 =
      some (sext (immB iw)) ∧
    BitField.signExtend (BitVec.ofNat 64
        (bits 31 31 <<< 20 ||| bits 19 12 <<< 12 ||| bits 20 20 <<< 11 ||| bits 30 21 <<< 1)) 20 =
      some (sext (immJ iw)) ∧
    (-2048 ≤ (sext (immI iw)).toInt ∧ (sext (immI iw)).toInt ≤ 2047) ∧
    (-2048 ≤ (sext (immS iw)).toInt ∧ (sext (immS iw)).toInt ≤ 2047) ∧
    (-4096 ≤ (sext (immB iw)).toInt ∧ (sext (immB iw)).toInt ≤ 4094 ∧
      (sext (immB iw)).toInt % 2 = 0) ∧
    (-1048576 ≤ (sext (immJ iw)).toInt ∧ (sext (immJ iw)).toInt ≤ 1048574 ∧
      (sext (immJ iw)).toInt % 2 = 0)) ∧
  (∃ iw : InstrWord, (sext (immB iw)).toInt % 4 = 2) ∧
  ∃ iw : InstrWord, (sext (immJ iw)).toInt % 4 = 2

/-- R10: `extractBits(v, start, count)` is the unsigned integer formed by bits `start` to
`start + count - 1` of `v`, on the whole domain the rule gives it. -/
def Obligations.ExtractBitsReadsTheField : Prop :=
  ∀ (v : BitVec 64) (start count : Nat), 1 ≤ count → count ≤ 32 → start + count ≤ 64 →
    ∃ r, BitField.extractBits v start count = some r ∧ r < 2 ^ count ∧
      ∀ j, j < count → r.testBit j = v.getLsbD (start + j)

/-- R11: bits `k` down to 0 are copied, bits 63 down to `k+1` are all `word[k]`; a set sign bit gives
a negative result; the two examples of the document. -/
def Obligations.SignExtendReplicatesTheSign : Prop :=
  (∀ (word : BitVec 64) (k : Nat), k ≤ 63 →
    ∃ r, BitField.signExtend word k = some r ∧
      (∀ j, j < 64 → r.getLsbD j = if j ≤ k then word.getLsbD j else word.getLsbD k) ∧
      (word.getLsbD k = true → r.toInt < 0)) ∧
  (BitField.signExtend 0b1000#64 3).map BitVec.toInt = some (-8) ∧
  (BitField.signExtend 0b0111#64 3).map BitVec.toInt = some 7

/-! ### Registers -/

/-- R21: register 0 reads 0 whatever was written, a write aimed at it changes nothing, and any other
write changes the named register only. -/
def Obligations.RegisterZeroIsHardWired : Prop :=
  (∀ s, getReg 0#5 s = 0#64) ∧ (∀ v s, setReg 0#5 v s = s) ∧
  ∀ (r d : RegIdx) v s, getReg r (setReg d v s) = if r = d ∧ d ≠ 0#5 then v else getReg r s

/-- Each instruction writes no register but the one R23's table gives it (`jalr`: `rs1`), and its
outcome depends on no register but those the table says it reads. -/
def Obligations.InstructionsTouchOnlyNamedRegisters : Prop :=
  (∀ i s t, exec i s = .next t → ∀ r, destination i ≠ some r → getReg r t = getReg r s) ∧
  ∀ i s ρ t t', (∀ r, r ∈ sources i → getReg r { s with regs := ρ } = getReg r s) →
    exec i s = .next t → exec i { s with regs := ρ } = .next t' →
      t'.pc = t.pc ∧ t'.cnt = t.cnt ∧ t'.mem = t.mem ∧ t'.status = t.status ∧ t'.err = t.err ∧
      (t.status ≠ .failed → ∀ r, destination i = some r → getReg r t' = getReg r t)

/-! ### Class R -/

/-- R141: the encoding, and `x[rd] <- (x[rs1] + x[rs2]) mod 2^64`; no error, everything else
unchanged but the pc and the two counters. -/
def Obligations.AddWritesTheSum : Prop :=
  ∀ (rd rs1 rs2 : RegIdx) (s : State),
    decode (0b0000000#7 ++ rs2 ++ rs1 ++ 0b000#3 ++ rd ++ 0b0110011#7) =
      .instr (.add rd rs1 rs2) ∧
    Completes (exec (.add rd rs1 rs2) s) s (written s rd (getReg rs1 s + getReg rs2 s))
      (s.pc + 4#64) (oneArithmetic s.cnt) (sameBytes s)

/-- R142: the encoding, and `x[rd] <- (x[rs1] - x[rs2]) mod 2^64`. -/
def Obligations.SubWritesTheDifference : Prop :=
  ∀ (rd rs1 rs2 : RegIdx) (s : State),
    decode (0b0100000#7 ++ rs2 ++ rs1 ++ 0b000#3 ++ rd ++ 0b0110011#7) =
      .instr (.sub rd rs1 rs2) ∧
    Completes (exec (.sub rd rs1 rs2) s) s (written s rd (getReg rs1 s - getReg rs2 s))
      (s.pc + 4#64) (oneArithmetic s.cnt) (sameBytes s)

/-- R143: the encoding, and the low 64 bits of the 128-bit product, the operands read as unsigned or
as signed alike. -/
def Obligations.MulWritesTheLowProduct : Prop :=
  ∀ (rd rs1 rs2 : RegIdx) (s : State),
    decode (0b0000001#7 ++ rs2 ++ rs1 ++ 0b000#3 ++ rd ++ 0b0110011#7) =
      .instr (.mul rd rs1 rs2) ∧
    Completes (exec (.mul rd rs1 rs2) s) s
      (written s rd (BitVec.ofNat 64 ((getReg rs1 s).toNat * (getReg rs2 s).toNat)))
      (s.pc + 4#64) (oneArithmetic s.cnt) (sameBytes s) ∧
    BitVec.ofNat 64 ((getReg rs1 s).toNat * (getReg rs2 s).toNat) =
      BitVec.ofInt 64 ((getReg rs1 s).toInt * (getReg rs2 s).toInt)

/-- R144 (41_r_arith): a left shift by `x[rs2][5:0]`; the six-bit amount is the spec's own decision
D9. -/
def Obligations.SllShiftsBySixBits : Prop :=
  ∀ (rd rs1 rs2 : RegIdx) (s : State),
    decode (0b0000000#7 ++ rs2 ++ rs1 ++ 0b001#3 ++ rd ++ 0b0110011#7) =
      .instr (.sll rd rs1 rs2) ∧
    Completes (exec (.sll rd rs1 rs2) s) s
      (written s rd (BitVec.ofNat 64 ((getReg rs1 s).toNat * 2 ^ ((getReg rs2 s).toNat % 64))))
      (s.pc + 4#64) (oneArithmetic s.cnt) (sameBytes s)

/-- R145 (41_r_arith): a logical right shift by `x[rs2][5:0]`; the six-bit amount is the spec's own
decision D9. -/
def Obligations.SrlShiftsBySixBits : Prop :=
  ∀ (rd rs1 rs2 : RegIdx) (s : State),
    decode (0b0000000#7 ++ rs2 ++ rs1 ++ 0b101#3 ++ rd ++ 0b0110011#7) =
      .instr (.srl rd rs1 rs2) ∧
    Completes (exec (.srl rd rs1 rs2) s) s
      (written s rd (BitVec.ofNat 64 ((getReg rs1 s).toNat / 2 ^ ((getReg rs2 s).toNat % 64))))
      (s.pc + 4#64) (oneArithmetic s.cnt) (sameBytes s)

/-- R146: the encoding, and the bitwise and of all 64 bits. -/
def Obligations.AndWritesTheConjunction : Prop :=
  ∀ (rd rs1 rs2 : RegIdx) (s : State),
    decode (0b0000000#7 ++ rs2 ++ rs1 ++ 0b111#3 ++ rd ++ 0b0110011#7) =
      .instr (.and rd rs1 rs2) ∧
    Completes (exec (.and rd rs1 rs2) s) s (written s rd (getReg rs1 s &&& getReg rs2 s))
      (s.pc + 4#64) (oneArithmetic s.cnt) (sameBytes s)

/-! ### Class R64 -/

/-- R151 (42_r64_word): the encoding, and all 64 bits of `x[rs1]` shifted left by `x[rs2][4:0]`, none
cut off at bit 31 and none copied upward; that the class counts as arithmetic (R150) is the spec's
own decision D17. -/
def Obligations.SllwShiftsAllBitsByFive : Prop :=
  ∀ (rd rs1 rs2 : RegIdx) (s : State),
    decode (0b0000000#7 ++ rs2 ++ rs1 ++ 0b001#3 ++ rd ++ 0b0111011#7) =
      .instr (.sllw rd rs1 rs2) ∧
    Completes (exec (.sllw rd rs1 rs2) s) s
      (written s rd (BitVec.ofNat 64 ((getReg rs1 s).toNat * 2 ^ ((getReg rs2 s).toNat % 32))))
      (s.pc + 4#64) (oneArithmetic s.cnt) (sameBytes s)

/-- R152 (42_r64_word): the encoding, and the low word of `x[rs1]`, read as signed, divided by
`2 ^ x[rs2][4:0]` rounding down; the result is the sign extension of its own low 32 bits; the logical
form is not in the class and names its funct7. That the class counts as arithmetic (R150) is the
spec's own decision D17. -/
def Obligations.SrawShiftsTheSignedWord : Prop :=
  ∀ (rd rs1 rs2 : RegIdx) (s : State),
    decode (0b0100000#7 ++ rs2 ++ rs1 ++ 0b101#3 ++ rd ++ 0b0111011#7) =
      .instr (.sraw rd rs1 rs2) ∧
    let r := BitVec.ofInt 64
      (((getReg rs1 s).setWidth 32).toInt / 2 ^ ((getReg rs2 s).toNat % 32))
    Completes (exec (.sraw rd rs1 rs2) s) s (written s rd r)
      (s.pc + 4#64) (oneArithmetic s.cnt) (sameBytes s) ∧
    r = (r.setWidth 32).signExtend 64 ∧
    decode (0b0000000#7 ++ rs2 ++ rs1 ++ 0b101#3 ++ rd ++ 0b0111011#7) =
      .illegal (.funct7 0b0000000#7)

/-! ### Class I-arith -/

/-- R156: the encoding, and `x[rd] <- (x[rs1] + sext_12(iw[31:20])) mod 2^64`. -/
def Obligations.AddiAddsTheSignedImmediate : Prop :=
  ∀ (rd rs1 : RegIdx) (imm : BitVec 12) (s : State),
    decode (imm ++ rs1 ++ 0b000#3 ++ rd ++ 0b0010011#7) = .instr (.addi rd rs1 imm) ∧
    Completes (exec (.addi rd rs1 imm) s) s
      (written s rd (BitVec.ofInt 64 ((getReg rs1 s).toInt + imm.toInt)))
      (s.pc + 4#64) (oneArithmetic s.cnt) (sameBytes s)

/-- R157: every word with funct3 101 of the class is `srli`, whatever iw[31:25] holds, and shifts
logically by iw[24:20], 0 to 31; there is no `slli`, funct3 001 is illegal. -/
def Obligations.SrliShiftsByFiveIgnoringTheRest : Prop :=
  ∀ (ignored : BitVec 7) (shamt : BitVec 5) (rd rs1 : RegIdx) (s : State),
    decode (ignored ++ shamt ++ rs1 ++ 0b101#3 ++ rd ++ 0b0010011#7) =
      .instr (.srli rd rs1 shamt ignored) ∧
    Completes (exec (.srli rd rs1 shamt ignored) s) s
      (written s rd (BitVec.ofNat 64 ((getReg rs1 s).toNat / 2 ^ shamt.toNat)))
      (s.pc + 4#64) (oneArithmetic s.cnt) (sameBytes s) ∧
    decode (ignored ++ shamt ++ rs1 ++ 0b001#3 ++ rd ++ 0b0010011#7) =
      .illegal (.funct3 0b001#3)

/-! ### Class I-load -/

/-- R161 (44_loads): the encoding; the sign-extended byte when it lies in a segment, else MemoryError
and nothing else; there is no zero-extending byte load, funct3 100 is illegal. The
wrap of the address (R160) is the spec's own decision D14, the bound of one segment (R57) D13, the
access made when `rd` is 0 (R160) D25, and that nothing else changes on failure (R207) D19. -/
def Obligations.LbLoadsTheSignedByte : Prop :=
  ∀ (rd rs1 : RegIdx) (imm : BitVec 12) (s : State),
    let ea := effectiveAddress rs1 imm s
    decode (imm ++ rs1 ++ 0b000#3 ++ rd ++ 0b0000011#7) = .instr (.lb rd rs1 imm) ∧
    decode (imm ++ rs1 ++ 0b100#3 ++ rd ++ 0b0000011#7) = .illegal (.funct3 0b100#3) ∧
    ea = getReg rs1 s + imm.signExtend 64 ∧
    (Loadable s ea 1 →
      Completes (exec (.lb rd rs1 imm) s) s
        (written s rd ((readByte s.mem ea.toNat).signExtend 64))
        (s.pc + 4#64) (oneLoad s.cnt) (sameBytes s)) ∧
    (¬ Loadable s ea 1 →
      FailsWith (exec (.lb rd rs1 imm) s) s (.memoryError .load ea 1 .outOfRange s.pc))

/-- R162 (44_loads): the encoding; the four bytes composed little-endian (D1) and sign-extended when
they lie in one segment, aligned or not, else MemoryError and nothing else; there is no
zero-extending word load, funct3 110 is illegal. The
wrap of the address (R160) is the spec's own decision D14, the bound of one segment (R57) D13, the
access made when `rd` is 0 (R160) D25, and that nothing else changes on failure (R207) D19. -/
def Obligations.LwLoadsTheSignedWord : Prop :=
  ∀ (rd rs1 : RegIdx) (imm : BitVec 12) (s : State),
    let ea := effectiveAddress rs1 imm s
    let b (k : Nat) : Byte := readByte s.mem (ea.toNat + k)
    decode (imm ++ rs1 ++ 0b010#3 ++ rd ++ 0b0000011#7) = .instr (.lw rd rs1 imm) ∧
    decode (imm ++ rs1 ++ 0b110#3 ++ rd ++ 0b0000011#7) = .illegal (.funct3 0b110#3) ∧
    ea = getReg rs1 s + imm.signExtend 64 ∧
    (Loadable s ea 4 →
      Completes (exec (.lw rd rs1 imm) s) s
        (written s rd ((b 3 ++ b 2 ++ b 1 ++ b 0).signExtend 64))
        (s.pc + 4#64) (oneLoad s.cnt) (sameBytes s)) ∧
    (¬ Loadable s ea 4 →
      FailsWith (exec (.lw rd rs1 imm) s) s (.memoryError .load ea 4 .outOfRange s.pc))

/-- R163 (44_loads): the encoding; the eight bytes composed little-endian (D1) when they lie in one
segment, aligned or not, else MemoryError and nothing else. The
wrap of the address (R160) is the spec's own decision D14, the bound of one segment (R57) D13, the
access made when `rd` is 0 (R160) D25, and that nothing else changes on failure (R207) D19. -/
def Obligations.LdLoadsTheDoubleword : Prop :=
  ∀ (rd rs1 : RegIdx) (imm : BitVec 12) (s : State),
    let ea := effectiveAddress rs1 imm s
    let b (k : Nat) : Byte := readByte s.mem (ea.toNat + k)
    decode (imm ++ rs1 ++ 0b011#3 ++ rd ++ 0b0000011#7) = .instr (.ld rd rs1 imm) ∧
    ea = getReg rs1 s + imm.signExtend 64 ∧
    (Loadable s ea 8 →
      Completes (exec (.ld rd rs1 imm) s) s
        (written s rd (b 7 ++ b 6 ++ b 5 ++ b 4 ++ b 3 ++ b 2 ++ b 1 ++ b 0))
        (s.pc + 4#64) (oneLoad s.cnt) (sameBytes s)) ∧
    (¬ Loadable s ea 8 →
      FailsWith (exec (.ld rd rs1 imm) s) s (.memoryError .load ea 8 .outOfRange s.pc))

/-! ### Class S -/

/-- R171 (45_stores): the encoding; the low byte of `x[rs2]` stored, all other bytes of memory as
before; in the code segment `write_to_code`, elsewhere `out_of_range`, and then nothing is written.
The wrap of the address (R160) is the spec's own decision D14, the bound of one segment (R57) D13,
`write_to_code` (R58) D10, and that nothing changes on failure (R207) D19. -/
def Obligations.SbStoresTheLowByte : Prop :=
  ∀ (hi : BitVec 7) (lo : BitVec 5) (rs2 rs1 : RegIdx) (s : State),
    let imm : BitVec 12 := hi ++ lo
    let ea := effectiveAddress rs1 imm s
    decode (hi ++ rs2 ++ rs1 ++ 0b000#3 ++ lo ++ 0b0100011#7) = .instr (.sb rs2 rs1 imm) ∧
    ea = getReg rs1 s + imm.signExtend 64 ∧
    (Memory.wf s.mem → Storable s ea 1 →
      Completes (exec (.sb rs2 rs1 imm) s) s (sameRegs s) (s.pc + 4#64) (oneStore s.cnt)
        (stored s ea.toNat 1 (getReg rs2 s))) ∧
    (inCode s.cfg ea.toNat 1 = true →
      FailsWith (exec (.sb rs2 rs1 imm) s) s (.memoryError .store ea 1 .writeToCode s.pc)) ∧
    (¬ Loadable s ea 1 →
      FailsWith (exec (.sb rs2 rs1 imm) s) s (.memoryError .store ea 1 .outOfRange s.pc))

/-- R172 (45_stores): as R171 for the low four bytes, little-endian (D1); the spec's own decisions are
those of R171: D14, D13, D10, D19. -/
def Obligations.SwStoresTheLowWord : Prop :=
  ∀ (hi : BitVec 7) (lo : BitVec 5) (rs2 rs1 : RegIdx) (s : State),
    let imm : BitVec 12 := hi ++ lo
    let ea := effectiveAddress rs1 imm s
    decode (hi ++ rs2 ++ rs1 ++ 0b010#3 ++ lo ++ 0b0100011#7) = .instr (.sw rs2 rs1 imm) ∧
    ea = getReg rs1 s + imm.signExtend 64 ∧
    (Memory.wf s.mem → Storable s ea 4 →
      Completes (exec (.sw rs2 rs1 imm) s) s (sameRegs s) (s.pc + 4#64) (oneStore s.cnt)
        (stored s ea.toNat 4 (getReg rs2 s))) ∧
    (inCode s.cfg ea.toNat 4 = true →
      FailsWith (exec (.sw rs2 rs1 imm) s) s (.memoryError .store ea 4 .writeToCode s.pc)) ∧
    (¬ Loadable s ea 4 →
      FailsWith (exec (.sw rs2 rs1 imm) s) s (.memoryError .store ea 4 .outOfRange s.pc))

/-- R173 (45_stores): as R171 for all eight bytes, little-endian (D1); the spec's own decisions are
those of R171: D14, D13, D10, D19. -/
def Obligations.SdStoresTheDoubleword : Prop :=
  ∀ (hi : BitVec 7) (lo : BitVec 5) (rs2 rs1 : RegIdx) (s : State),
    let imm : BitVec 12 := hi ++ lo
    let ea := effectiveAddress rs1 imm s
    decode (hi ++ rs2 ++ rs1 ++ 0b011#3 ++ lo ++ 0b0100011#7) = .instr (.sd rs2 rs1 imm) ∧
    ea = getReg rs1 s + imm.signExtend 64 ∧
    (Memory.wf s.mem → Storable s ea 8 →
      Completes (exec (.sd rs2 rs1 imm) s) s (sameRegs s) (s.pc + 4#64) (oneStore s.cnt)
        (stored s ea.toNat 8 (getReg rs2 s))) ∧
    (inCode s.cfg ea.toNat 8 = true →
      FailsWith (exec (.sd rs2 rs1 imm) s) s (.memoryError .store ea 8 .writeToCode s.pc)) ∧
    (¬ Loadable s ea 8 →
      FailsWith (exec (.sd rs2 rs1 imm) s) s (.memoryError .store ea 8 .outOfRange s.pc))

/-! ### Class B -/

/-- R181: the encoding, with every bit of the offset in its place; taken exactly when all 64 bits are
equal, to the branch's own address plus the offset, else to `pc + 4`; no register and no byte
written. -/
def Obligations.BeqBranchesOnEqual : Prop :=
  ∀ (b12 : BitVec 1) (b10 : BitVec 6) (b4 : BitVec 4) (b11 : BitVec 1) (rs1 rs2 : RegIdx)
    (s : State),
    let offset : BitVec 13 := b12 ++ b11 ++ b10 ++ b4 ++ 0#1
    let taken := decide (getReg rs1 s = getReg rs2 s)
    decode (b12 ++ b10 ++ rs2 ++ rs1 ++ 0b000#3 ++ b4 ++ b11 ++ 0b1100011#7) =
      .instr (.beq rs1 rs2 offset) ∧
    Completes (exec (.beq rs1 rs2 offset) s) s (sameRegs s)
      (if taken then s.pc + offset.signExtend 64 else s.pc + 4#64) (oneBranch taken s.cnt)
      (sameBytes s)

/-- R182: as R181, taken exactly when any of the 64 bits differs. -/
def Obligations.BneBranchesOnDifferent : Prop :=
  ∀ (b12 : BitVec 1) (b10 : BitVec 6) (b4 : BitVec 4) (b11 : BitVec 1) (rs1 rs2 : RegIdx)
    (s : State),
    let offset : BitVec 13 := b12 ++ b11 ++ b10 ++ b4 ++ 0#1
    let taken := decide (getReg rs1 s ≠ getReg rs2 s)
    decode (b12 ++ b10 ++ rs2 ++ rs1 ++ 0b001#3 ++ b4 ++ b11 ++ 0b1100011#7) =
      .instr (.bne rs1 rs2 offset) ∧
    Completes (exec (.bne rs1 rs2 offset) s) s (sameRegs s)
      (if taken then s.pc + offset.signExtend 64 else s.pc + 4#64) (oneBranch taken s.cnt)
      (sameBytes s)

/-- R183: as R181, taken exactly when `signed(x[rs1]) < signed(x[rs2])`. -/
def Obligations.BltBranchesOnSignedLess : Prop :=
  ∀ (b12 : BitVec 1) (b10 : BitVec 6) (b4 : BitVec 4) (b11 : BitVec 1) (rs1 rs2 : RegIdx)
    (s : State),
    let offset : BitVec 13 := b12 ++ b11 ++ b10 ++ b4 ++ 0#1
    let taken := decide ((getReg rs1 s).toInt < (getReg rs2 s).toInt)
    decode (b12 ++ b10 ++ rs2 ++ rs1 ++ 0b100#3 ++ b4 ++ b11 ++ 0b1100011#7) =
      .instr (.blt rs1 rs2 offset) ∧
    Completes (exec (.blt rs1 rs2 offset) s) s (sameRegs s)
      (if taken then s.pc + offset.signExtend 64 else s.pc + 4#64) (oneBranch taken s.cnt)
      (sameBytes s)

/-- R184: as R181, taken exactly when `signed(x[rs1]) >= signed(x[rs2])`. -/
def Obligations.BgeBranchesOnSignedGreaterOrEqual : Prop :=
  ∀ (b12 : BitVec 1) (b10 : BitVec 6) (b4 : BitVec 4) (b11 : BitVec 1) (rs1 rs2 : RegIdx)
    (s : State),
    let offset : BitVec 13 := b12 ++ b11 ++ b10 ++ b4 ++ 0#1
    let taken := decide ((getReg rs1 s).toInt ≥ (getReg rs2 s).toInt)
    decode (b12 ++ b10 ++ rs2 ++ rs1 ++ 0b101#3 ++ b4 ++ b11 ++ 0b1100011#7) =
      .instr (.bge rs1 rs2 offset) ∧
    Completes (exec (.bge rs1 rs2 offset) s) s (sameRegs s)
      (if taken then s.pc + offset.signExtend 64 else s.pc + 4#64) (oneBranch taken s.cnt)
      (sameBytes s)

/-! ### Jumps -/

/-- R190: the encoding, with every bit of the offset in its place; the link value `pc + 4` into `rd`,
unless it is register zero, and the pc to the jump's own address plus the offset. -/
def Obligations.JalLinksAndJumps : Prop :=
  ∀ (b20 : BitVec 1) (b10 : BitVec 10) (b11 : BitVec 1) (b19 : BitVec 8) (rd : RegIdx) (s : State),
    let offset : BitVec 21 := b20 ++ b19 ++ b11 ++ b10 ++ 0#1
    decode (b20 ++ b10 ++ b11 ++ b19 ++ rd ++ 0b1101111#7) = .instr (.jal rd offset) ∧
    Completes (exec (.jal rd offset) s) s (written s rd (s.pc + 4#64))
      (s.pc + offset.signExtend 64) (oneJump s.cnt) (sameBytes s)

/-- R191 (47_jumps): the target is the old `x[rs1]` plus the immediate with bit 0 cleared, the link
value goes into `rs1` and never into `rd`, and every funct3 and rd is accepted and ignored; that the
two fields are not examined is the spec's own decision D15. -/
def Obligations.JalrLinksIntoItsSource : Prop :=
  ∀ (rd : RegIdx) (funct3 : BitVec 3) (rs1 : RegIdx) (imm : BitVec 12) (s : State),
    let sum := getReg rs1 s + imm.signExtend 64
    decode (imm ++ rs1 ++ funct3 ++ rd ++ 0b1100111#7) = .instr (.jalr rd funct3 rs1 imm) ∧
    Completes (exec (.jalr rd funct3 rs1 imm) s) s (written s rs1 (s.pc + 4#64))
      (BitVec.ofNat 64 (sum.toNat / 2 * 2)) (oneJump s.cnt) (sameBytes s)

/-! ### One step -/

/-- When the word at the pc decodes to `i`, the step is `exec i` in the state after the fetch: one
fetch event more, and on a miss the indexed line filled (40_fetch_and_step R121). The cache is
coherent (R77). -/
def Obligations.StepRunsTheDecodedInstruction : Prop :=
  ∀ s i, CacheCoherent s → ReadyToFetch s → decode (codeWord s.mem s.pc.toNat) = .instr i →
    step s = exec i (fetched s)

/-- The normal end (40_fetch_and_step R123): a pc equal to STOP makes the status Stopped at the start
of the step, before the limit and before any fetch, with nothing else changed; no other pc makes it
Stopped (an error makes it Failed, R121); and a step makes the pc STOP only by sequential flow from
`STOP - 4`, or by a jump or a taken branch. That the STOP check stands before the limit (R121, R124)
is the spec's own decision D20. -/
def Obligations.StopEndsTheRun : Prop :=
  (∀ s, s.status = .running → s.pc = s.cfg.stop → step s = .next { s with status := .stopped }) ∧
  (∀ s t, step s = .next t → (t.status = .stopped ↔ s.pc = s.cfg.stop)) ∧
  ∀ s t, step s = .next t → s.pc ≠ s.cfg.stop → t.pc = s.cfg.stop →
    s.pc + 4#64 = s.cfg.stop ∨
    ∃ iw u i, fetchWord s.pc s = .word iw u ∧ decode iw = .instr i ∧
      (jumps i = true ∨ t.cnt = oneBranch true s.cnt)

/-- A run that has completed `MAX_STEPS` instructions and is not at STOP fails before its next fetch,
with the pc and the count recorded (40_fetch_and_step R124, 60_exceptions R203); the order of the
checks and the record are the spec's own decision D20. -/
def Obligations.StepLimitFailsTheRun : Prop :=
  ∀ s n, s.status = .running → s.pc ≠ s.cfg.stop → s.cfg.maxSteps = some n →
    n ≤ s.cnt.instructions →
    FailsWith (step s) s (.stepLimitExceeded s.pc s.cnt.instructions)

/-- A pc that is not a multiple of 4 fails the run before the cache is consulted (10_state R26,
20_memory R68); the check is the spec's own decision D12. -/
def Obligations.MisalignedPcFailsTheRun : Prop :=
  ∀ s, s.status = .running → s.pc ≠ s.cfg.stop →
    (∀ n, s.cfg.maxSteps = some n → s.cnt.instructions < n) → s.pc.toNat % 4 ≠ 0 →
    FailsWith (step s) s (.memoryError .fetch s.pc 4 .fetchMisaligned s.pc)

/-- An aligned pc outside the code segment, the stack included, fails the run and leaves the cache as
it was (20_memory R59, R76); the refusal is the spec's own decision D11. -/
def Obligations.FetchOutsideCodeFailsTheRun : Prop :=
  ∀ s, CacheCoherent s → s.status = .running → s.pc ≠ s.cfg.stop →
    (∀ n, s.cfg.maxSteps = some n → s.cnt.instructions < n) → s.pc.toNat % 4 = 0 →
    inCode s.cfg s.pc.toNat 4 = false →
    FailsWith (step s) s (.memoryError .fetch s.pc 4 .fetchOutsideCode s.pc)

/-- An illegal word at the pc fails the run with a DecodeError that records the field, the word and
its address; the fill and the event of the fetch stay (60_exceptions R201, R207; the record is the
spec's own decision D16, what stays is D19). -/
def Obligations.IllegalWordFailsTheRun : Prop :=
  ∀ s cause, CacheCoherent s → ReadyToFetch s →
    offendingField (codeWord s.mem s.pc.toNat) = some cause →
    FailsWith (step s) (fetched s) (.decodeError cause (codeWord s.mem s.pc.toNat) s.pc)

/-- No step is taken from Stopped or Failed (10_state R31, 60_exceptions R209): the model answers the
fault `runEnded`, which is its own name for it (log entry 6). -/
def Obligations.TerminalStatesTakeNoStep : Prop :=
  ∀ s, s.status = .running ∨ step s = .fault (.runEnded s.status)

/-- From Running a step always answers a next state: no instruction and no word ends in a fault or a
refusal (40_fetch_and_step R121). -/
def Obligations.RunningAlwaysSteps : Prop :=
  ∀ s, s.status = .running → ∃ t, step s = .next t

/-- A step that fails the run leaves every register, the pc, the memory, the counters and the
configuration as they were at its start, and sets the error record (60_exceptions R207); that no
partial effect remains is the spec's own decision D19. -/
def Obligations.ErrorsArePrecise : Prop :=
  ∀ s t, step s = .next t → t.status = .failed →
    s.status = .running ∧ t.err ≠ none ∧ (∀ r, getReg r t = getReg r s) ∧ t.pc = s.pc ∧
      t.mem = s.mem ∧ t.cnt = s.cnt ∧ t.cfg = s.cfg

/-- A step that goes on counts one instruction in `instructions` and in exactly one class counter; a
step that ends the run counts nothing (10_state R27, 40_fetch_and_step R128; the classification is
the spec's own decision D17). -/
def Obligations.EachInstructionCountsOnce : Prop :=
  ∀ s t, step s = .next t →
    (t.status = .running →
      t.cnt = oneArithmetic s.cnt ∨ t.cnt = oneLoad s.cnt ∨ t.cnt = oneStore s.cnt ∨
        t.cnt = oneJump s.cnt ∨ t.cnt = oneBranch true s.cnt ∨ t.cnt = oneBranch false s.cnt) ∧
    (t.status ≠ .running → t.cnt = s.cnt)

/-! ### Memory -/

/-- The bytes of the code segment and the configuration are constant through every step (20_memory
R51, 10_state R30), in every state whose configuration R7 allows and whose memory is in its
canonical form. -/
def Obligations.CodeSegmentIsConstant : Prop :=
  ∀ s t, cfgValid s.cfg = true → Memory.wf s.mem → step s = .next t →
    t.cfg = s.cfg ∧ ∀ a, InCodeSegment s.cfg a → readByte t.mem a = readByte s.mem a

/-- Narrow reads after an 8-byte write see the corresponding bytes of the value (20_memory R62, which
the spec marks as derived from R54, R60 and R61). -/
def Obligations.NarrowReadsSeeTheWideWrite : Prop :=
  ∀ (s t : State) (a v : Word), cfgValid s.cfg = true → Memory.wf s.mem →
    memWrite s a 8 v = .ok t →
    (∀ k : Nat, k < 8 →
      memRead t (a + BitVec.ofNat 64 k) 1 = .ok (v.extractLsb' (8 * k) 8).toNat) ∧
    memRead t (a + 4#64) 4 = .ok (v.extractLsb' 32 32).toNat

/-- A doubleword load right after the doubleword store to the same address returns the stored value
(20_memory R65, 44_loads R163 example): `sd rs2, imm(rs1)` and then `ld rd, imm(rs1)` give `x[rd]`
the value of `x[rs2]`. -/
def Obligations.LoadReturnsTheStoredValue : Prop :=
  ∀ (rd rs1 rs2 : RegIdx) (imm : BitVec 12) (s : State), Memory.wf s.mem →
    Storable s (effectiveAddress rs1 imm s) 8 → rd ≠ 0#5 →
    ∃ t u, exec (.sd rs2 rs1 imm) s = .next t ∧ exec (.ld rd rs1 imm) t = .next u ∧
      getReg rd u = getReg rs2 s

/-- The same for the narrow pairs (20_memory R65, 44_loads R161, R162, 45_stores R171, R172): `sb` then
`lb`, and `sw` then `lw`, at the same `imm(rs1)` leave in `x[rd]` the low part of `x[rs2]`,
sign-extended, and every other register as it was; with `rd = 0` nothing is written. -/
def Obligations.NarrowLoadReturnsTheStoredPart : Prop :=
  ∀ (rd rs1 rs2 : RegIdx) (imm : BitVec 12) (s : State), Memory.wf s.mem →
    (Storable s (effectiveAddress rs1 imm s) 1 →
      ∃ t u, exec (.sb rs2 rs1 imm) s = .next t ∧ exec (.lb rd rs1 imm) t = .next u ∧
        ∀ r, getReg r u = written s rd (((getReg rs2 s).setWidth 8).signExtend 64) r) ∧
    (Storable s (effectiveAddress rs1 imm s) 4 →
      ∃ t u, exec (.sw rs2 rs1 imm) s = .next t ∧ exec (.lw rd rs1 imm) t = .next u ∧
        ∀ r, getReg r u = written s rd (((getReg rs2 s).setWidth 32).signExtend 64) r)

/-! ### The instruction cache -/

/-- R71: the index is `addr[m+1:2]` when `C = 2^m`, and the tag is the whole address; two addresses
collide exactly when they differ and agree in bits `m+1` to 2, which for word-aligned addresses is
when they differ by a nonzero multiple of `4*C`. -/
def Obligations.AddressesCollideModuloTheCacheSize : Prop :=
  (∀ (c : Cfg) (m : Nat) (a b : Word), c.cacheLines = 2 ^ m →
    lineIndex c a = (a.toNat / 4) % 2 ^ m ∧
    (Collide c a b ↔ a ≠ b ∧ ∀ j, 2 ≤ j → j ≤ m + 1 → a.getLsbD j = b.getLsbD j) ∧
    (a.toNat % 4 = 0 → b.toNat % 4 = 0 →
      (Collide c a b ↔
        ∃ k : Int, k ≠ 0 ∧ (a.toNat : Int) - (b.toNat : Int) = k * (4 * c.cacheLines : Int)))) ∧
  (∀ (s : State) (a : Word) (iw : InstrWord), lookup s a = some iw ↔
    ∃ l, s.lines[lineIndex s.cfg a]? = some l ∧ l.valid = true ∧ l.tag = a ∧ l.word = iw) ∧
  ∀ (s : State) (a : Word) (iw : InstrWord), lineIndex s.cfg a < s.lines.length →
    (fillLine s a iw).lines[lineIndex s.cfg a]? = some ⟨a, true, iw⟩

/-- A second fetch of the same address answers the same word as a hit, with no memory read and no
line changed (20_memory R72, R73, R78; the document's test T8). -/
def Obligations.SecondFetchHits : Prop :=
  ∀ (a : Word) (s t : State) (iw : InstrWord), s.lines.length = s.cfg.cacheLines →
    1 ≤ s.cfg.cacheLines → fetchWord a s = .word iw t →
    ∃ u, fetchWord a t = .word iw u ∧ u.lines = t.lines ∧ u.trace = .hit a :: t.trace

/-- After a fetch, an address with the same index and another tag misses: no false hit (20_memory
R71, R73; the document's test T9). -/
def Obligations.CollidingAddressMisses : Prop :=
  ∀ (a b : Word) (s t : State) (iw : InstrWord), s.lines.length = s.cfg.cacheLines →
    1 ≤ s.cfg.cacheLines → Collide s.cfg a b → fetchWord a s = .word iw t → lookup t b = none

/-- The cache is transparent: two machines that differ in their cache size, cache content and trace
only take steps that differ in those only (20_memory R78, which the spec marks as derived from
R77). -/
def Obligations.CacheIsTransparent : Prop :=
  ∀ s t, Invariant s → Invariant t → SameArchitecture s t → SameOutcome (step s) (step t)

/-! ### Launch and runs -/

/-- Launch accepts exactly the configurations R7 allows, with an image of `CODE_WORDS` words, refuses
the others, and is refused on a Running machine (40_fetch_and_step R132); the constraints are the
spec's own decision D27, the names of the refusals are the model's. -/
def Obligations.LaunchChecksTheConfiguration : Prop :=
  (∀ p : LaunchArgs,
    let c := p.cfg
    let codeEnd := c.codeBase.toNat + 4 * c.codeWords
    let stackEnd := c.stackBase.toNat + c.stackSize
    let allowed := c.codeBase.toNat % 4 = 0 ∧ 1 ≤ c.codeWords ∧ codeEnd ≤ 2 ^ 64 ∧
      1 ≤ c.stackSize ∧ stackEnd < 2 ^ 64 ∧
      (codeEnd ≤ c.stackBase.toNat ∨ stackEnd ≤ c.codeBase.toNat) ∧
      (∃ m, c.cacheLines = 2 ^ m) ∧ c.stop.toNat % 4 = 0 ∧
      ¬ (c.codeBase.toNat ≤ c.stop.toNat ∧ c.stop.toNat < codeEnd) ∧
      p.image.length = c.codeWords
    (allowed → launch p = .next (launchState p)) ∧
    (¬ allowed → launch p = .refused .badConfiguration)) ∧
  ∀ s p, (s.status = .running → relaunch s p = .refused .launchWhileRunning) ∧
    (s.status ≠ .running → relaunch s p = launch p)

/-- The launch values of 10_state R37, for every image, argument and unspecified content: the
registers (the indices, `x[1]` and `x[2]` are the spec's own decisions D4, D5, D7), the pc (D6), the
counters, the status, the image and the stack bytes (a byte the list `initStack` does not hold is
`Config.unlistedByte`, log entry 3). -/
def Obligations.LaunchSetsEveryValue : Prop :=
  ∀ (p : LaunchArgs) (s : State), launch p = .next s →
    getReg 1#5 s = p.cfg.stop ∧
    (getReg 2#5 s).toNat = p.cfg.stackBase.toNat + p.cfg.stackSize ∧
    getReg 10#5 s = p.args[0] ∧ getReg 11#5 s = p.args[1] ∧ getReg 12#5 s = p.args[2] ∧
    getReg 13#5 s = p.args[3] ∧
    (∀ r : RegIdx, (3 ≤ r.toNat ∧ r.toNat ≤ 9) ∨ 14 ≤ r.toNat →
      getReg r s = p.initRegs[r.toNat]'r.isLt) ∧
    s.pc = p.cfg.codeBase ∧ s.cnt = Counters.zero ∧ s.cfg = p.cfg ∧ s.status = .running ∧
    s.err = none ∧ s.trace = [] ∧
    (∀ k iw, p.image[k]? = some iw →
      codeWord s.mem (p.cfg.codeBase.toNat + 4 * k) = iw) ∧
    ∀ j, j < p.cfg.stackSize →
      readByte s.mem (p.cfg.stackBase.toNat + j) = p.initStack.getD j Config.unlistedByte

/-- R236: after launch every line is invalid, and in the run from there an address that no event of
the trace names misses: the first fetch of every address is a miss. -/
def Obligations.LaunchEmptiesTheCache : Prop :=
  ∀ (p : LaunchArgs) (s : State), launch p = .next s →
    (s.lines.length = p.cfg.cacheLines ∧ ∀ l ∈ s.lines, l.valid = false) ∧
    ∀ k t a, Host.Core.run core k s = .next t → FetchEvent.hit a ∉ t.trace →
      FetchEvent.miss a ∉ t.trace → lookup t a = none

/-- The invariant of the machine holds after every launch (10_state R28, R37, 20_memory R77). -/
def Obligations.InvariantAfterLaunch : Prop :=
  ∀ p s, launch p = .next s → Invariant s

/-- The invariant holds at `State.reset`, whose configuration is the model's choice (log entries 1
to 5). -/
def Obligations.InvariantAtReset : Prop := Invariant State.reset

/-- Every step keeps the invariant: a valid configuration, memory canonical and inside the two
segments (R33), a coherent cache (R77), balanced counters (R28), an error record exactly when Failed
(R32), the step limit (R124), an even pc (C3), one event per fetch (R135). R28 and R77 are marked by
the spec as derived. -/
def Obligations.InvariantKeptByEveryStep : Prop :=
  ∀ s t, Invariant s → step s = .next t → Invariant t

/-- With `MAX_STEPS = n` the run from any Running state ends within as many steps as instructions
are left and one more (40_fetch_and_step R124); the test of the limit, what it counts and where it
stands are the spec's own decision D20. -/
def Obligations.StepLimitBoundsEveryRun : Prop :=
  ∀ s n, s.status = .running → s.cfg.maxSteps = some n →
    RunEndsWithin (n - s.cnt.instructions + 1) s

/-- A return through `x1 = STOP` ends the run normally and delivers `x[10]`, whatever the `rd` and
funct3 fields of the `jalr` hold (40_fetch_and_step R123, R129, R130; 70_reset_and_hazards R235; the
mechanism is the spec's own decision D4, the result register D5). -/
def Obligations.ReturnToStopDeliversTheResult : Prop :=
  ∀ s rd funct3, CacheCoherent s → ReadyToFetch s → s.cfg.stop.toNat % 4 = 0 →
    decode (codeWord s.mem s.pc.toNat) = .instr (.jalr rd funct3 1#5 0#12) →
    getReg 1#5 s = s.cfg.stop → EndsNormally s (getReg 10#5 s)

/-- What the result interface delivers (40_fetch_and_step R129, R133): nothing while Running; Stopped,
the value of `x[10]` (D5) and the counters when Stopped; Failed, no value, the counters and the error
record when Failed. What is delivered on failure is the spec's own decision D31. -/
def Obligations.ResultFollowsTheStatus : Prop :=
  ∀ s, Invariant s →
    (s.status = .running → result s = none) ∧
    (s.status = .stopped → result s = some ⟨.stopped, some (getReg 10#5 s), s.cnt, none⟩) ∧
    (s.status = .failed →
      ∃ e, s.err = some e ∧ result s = some ⟨.failed, none, s.cnt, some e⟩)

/-- A step that fails the run delivers through the result interface the error record it set, no value,
and the counters of the instructions completed before it (40_fetch_and_step R129, 60_exceptions
R207; the spec's own decisions D19 and D31). -/
def Obligations.FailingStepDeliversItsError : Prop :=
  ∀ s t, step s = .next t → t.status = .failed →
    ∃ e, t.err = some e ∧ result t = some ⟨.failed, none, s.cnt, some e⟩

/-- Two words that differ only in the bits an instruction ignores (30_encoding R112: `srli`
iw[31:25]; `jalr` iw[14:12] and iw[11:7]) decode to instructions with the same meaning in every
state. For `jalr` this is the spec's own decision D15. -/
def Obligations.IgnoredBitsHaveNoEffect : Prop :=
  ∀ v w : InstrWord,
    ((fieldOpcode v = 0b0010011#7 ∧ fieldFunct3 v = 0b101#3 ∧
        v.extractLsb' 0 25 = w.extractLsb' 0 25) ∨
      (fieldOpcode v = 0b1100111#7 ∧ fieldOpcode w = 0b1100111#7 ∧
        v.extractLsb' 15 17 = w.extractLsb' 15 17)) →
    ∃ i j, decode v = .instr i ∧ decode w = .instr j ∧ ∀ s, exec i s = exec j s
end

