-- ==== Sys2Proof/Laws/Memory.lean ====
section
/-! SUPPORT. The laws of memory: reading a byte after writing one, the canonical form and the listed
addresses through every memory operation, and the extent of a read. -/

namespace Sys2Proof.Machine

/-! ### One byte -/

/-- A byte below every listed address reads as an unlisted one. -/
theorem readByte_of_lt {m : Memory} {a : Nat} (h : ∀ c ∈ m, a < c.1) :
    readByte m a = Config.unlistedByte := by
  induction m with
  | nil => rfl
  | cons c m ih =>
    obtain ⟨b, v⟩ := c
    have hb : a < b := h (b, v) (by simp)
    rw [readByte, if_neg (by omega), ih fun c hc => h c (List.mem_cons_of_mem _ hc)]

/-- Every entry of a written memory is an entry of the old one or the byte written. -/
theorem mem_writeByte {m : Memory} {a : Nat} {v : Byte} {c : Host.Cell}
    (h : c ∈ writeByte m a v) : c ∈ m ∨ (c = (a, v) ∧ v ≠ Config.unlistedByte) := by
  induction m with
  | nil =>
    unfold writeByte at h
    split at h <;> simp_all
  | cons d m ih =>
    obtain ⟨b, u⟩ := d
    unfold writeByte at h
    split at h
    · split at h <;> simp_all
      tauto
    · split at h
      · split at h <;> simp_all
        tauto
      · simp only [List.mem_cons] at h ⊢
        rcases h with h | h
        · exact .inl (.inl h)
        · rcases ih h with h | h
          · exact .inl (.inr h)
          · exact .inr h

/-- Writing a byte keeps the canonical form. -/
theorem wf_writeByte {m : Memory} (h : Memory.wf m) (a : Nat) (v : Byte) :
    Memory.wf (writeByte m a v) := by
  induction m with
  | nil => unfold writeByte; split <;> simp_all [Memory.wf]
  | cons d m ih =>
    obtain ⟨b, u⟩ := d
    obtain ⟨hp, hv⟩ := h
    rw [List.pairwise_cons] at hp
    have hm : Memory.wf m := ⟨hp.2, fun c hc => hv c (List.mem_cons_of_mem _ hc)⟩
    have hu : u ≠ Config.unlistedByte := hv (b, u) (by simp)
    unfold writeByte
    split
    · rename_i hab
      split
      · exact ⟨List.pairwise_cons.2 hp, hv⟩
      · rename_i hne
        refine ⟨List.pairwise_cons.2 ⟨fun c hc => ?_, List.pairwise_cons.2 hp⟩, fun c hc => ?_⟩
        · rcases List.mem_cons.1 hc with rfl | hc
          · exact hab
          · exact Nat.lt_trans hab (hp.1 c hc)
        · rcases List.mem_cons.1 hc with rfl | hc
          · exact hne
          · exact hv c hc
    · split
      · rename_i hab
        subst hab
        split
        · exact hm
        · rename_i hne
          refine ⟨List.pairwise_cons.2 hp, fun c hc => ?_⟩
          rcases List.mem_cons.1 hc with rfl | hc
          · exact hne
          · exact hm.2 c hc
      · obtain ⟨ip, iv⟩ := ih hm
        refine ⟨List.pairwise_cons.2 ⟨fun c hc => ?_, ip⟩, fun c hc => ?_⟩
        · rcases mem_writeByte hc with hc | ⟨rfl, -⟩
          · exact hp.1 c hc
          · show b < a
            omega
        · rcases List.mem_cons.1 hc with rfl | hc
          · exact hu
          · exact iv c hc

/-- Reading a byte after a write: the byte written at its address, the old byte everywhere else. -/
theorem readByte_writeByte {m : Memory} (h : Memory.wf m) (a : Nat) (v : Byte) (p : Nat) :
    readByte (writeByte m a v) p = if p = a then v else readByte m p := by
  induction m with
  | nil =>
    unfold writeByte
    by_cases hv : v = Config.unlistedByte
    · simp [hv, readByte]
    · simp [hv, readByte]
  | cons d m ih =>
    obtain ⟨b, u⟩ := d
    obtain ⟨hp, hv⟩ := h
    rw [List.pairwise_cons] at hp
    have hm : Memory.wf m := ⟨hp.2, fun c hc => hv c (List.mem_cons_of_mem _ hc)⟩
    have hbm : readByte m b = Config.unlistedByte := readByte_of_lt hp.1
    unfold writeByte
    by_cases hab : a < b
    · have ham : readByte m a = Config.unlistedByte :=
        readByte_of_lt fun c hc => Nat.lt_trans hab (hp.1 c hc)
      rw [if_pos hab]
      by_cases hu : v = Config.unlistedByte
      · rw [if_pos hu]
        by_cases hpa : p = a
        · subst hpa
          simp [readByte, show p ≠ b by omega, ham, hu]
        · simp [hpa]
      · simp [hu, readByte]
    · rw [if_neg hab]
      by_cases hab' : a = b
      · subst hab'
        rw [if_pos rfl]
        by_cases hu : v = Config.unlistedByte
        · rw [if_pos hu]
          by_cases hpa : p = a
          · subst hpa; simp [hbm, hu]
          · simp [readByte, hpa]
        · rw [if_neg hu]
          by_cases hpa : p = a <;> simp [readByte, hpa]
      · rw [if_neg hab']
        by_cases hpb : p = b
        · subst hpb
          simp [readByte, show p ≠ a by omega]
        · simp [readByte, hpb, ih hm]

/-! ### Several bytes -/

/-- Writing bytes keeps the canonical form. -/
theorem wf_writeBytes {m : Memory} (h : Memory.wf m) (a n : Nat) (v : Word) :
    Memory.wf (writeBytes m a n v) := by
  induction n generalizing m a v with
  | zero => exact h
  | succ n ih => exact ih (wf_writeByte h _ _) _ _

/-- Every address a write of `n` bytes at `a` leaves listed was listed or lies in the range
written. -/
theorem mem_writeBytes {m : Memory} {a n : Nat} {v : Word} {c : Host.Cell}
    (h : c ∈ writeBytes m a n v) : c ∈ m ∨ (a ≤ c.1 ∧ c.1 < a + n) := by
  induction n generalizing m a v with
  | zero => exact .inl h
  | succ n ih =>
    rcases ih h with h | ⟨h1, h2⟩
    · rcases mem_writeByte h with h | ⟨rfl, -⟩
      · exact .inl h
      · exact .inr ⟨Nat.le_refl a, show a < a + (n + 1) by omega⟩
    · exact .inr ⟨by omega, by omega⟩

/-- Reading a byte after writing the low `n` bytes of `v` at `a`, little-endian (R61). -/
theorem readByte_writeBytes {m : Memory} (h : Memory.wf m) (a n : Nat) (v : Word) (p : Nat) :
    readByte (writeBytes m a n v) p =
      if a ≤ p ∧ p < a + n then v.extractLsb' (8 * (p - a)) 8 else readByte m p := by
  induction n generalizing m a v with
  | zero => simp [writeBytes, show ¬ (a ≤ p ∧ p < a) by omega]
  | succ n ih =>
    rw [writeBytes, ih (wf_writeByte h _ _), readByte_writeByte h]
    by_cases h1 : a + 1 ≤ p ∧ p < a + 1 + n
    · rw [if_pos h1, if_pos (by omega)]
      apply BitVec.eq_of_getLsbD_eq
      intro i hi
      simp only [BitVec.getLsbD_extractLsb', BitVec.getLsbD_ushiftRight]
      congr 2
      omega
    · rw [if_neg h1]
      by_cases h2 : p = a
      · subst h2
        rw [if_pos rfl, if_pos (by omega)]
        simp
      · rw [if_neg h2, if_neg (by omega)]

/-- A read of `n` bytes depends on those bytes alone. -/
theorem readBytes_congr {m m' : Memory} {a n : Nat}
    (h : ∀ p, a ≤ p → p < a + n → readByte m p = readByte m' p) :
    readBytes m a n = readBytes m' a n := by
  induction n generalizing a with
  | zero => rfl
  | succ n ih =>
    rw [readBytes, readBytes, h a (Nat.le_refl a) (by omega),
      ih fun p h1 h2 => h p (by omega) (by omega)]

/-- A read of `n` bytes gives an unsigned `8n`-bit value (R60). -/
theorem readBytes_lt (m : Memory) (a n : Nat) : readBytes m a n < 2 ^ (8 * n) := by
  induction n generalizing a with
  | zero => simp [readBytes]
  | succ n ih =>
    have h1 := (readByte m a).isLt
    have h2 := ih (a + 1)
    rw [readBytes, Nat.mul_succ, Nat.pow_add]
    omega

/-- The number the `n` bytes of `v` at `8k` compose: `(v >> 8k) mod 2^(8n)`. -/
theorem readBytes_of_bytes {m : Memory} {a n k : Nat} {v : Word}
    (h : ∀ j, j < n → readByte m (a + j) = v.extractLsb' (8 * (k + j)) 8) :
    readBytes m a n = (v.toNat >>> (8 * k)) % 2 ^ (8 * n) := by
  induction n generalizing a k with
  | zero => simp [readBytes, Nat.mod_one]
  | succ n ih =>
    have h0 := h 0 (by omega)
    have hs := ih (a := a + 1) (k := k + 1) fun j hj => by
      have := h (j + 1) (by omega)
      rw [show a + 1 + j = a + (j + 1) by omega, show k + 1 + j = k + (j + 1) by omega]
      exact this
    simp only [Nat.add_zero] at h0
    rw [readBytes, h0, hs, BitVec.extractLsb'_toNat]
    simp only [Nat.shiftRight_eq_div_pow]
    rw [show 8 * (k + 1) = 8 * k + 8 by omega, show 8 * (n + 1) = 8 + 8 * n by omega,
      Nat.pow_add 2 (8 * k) 8, ← Nat.div_div_eq_div_mul, Nat.pow_add 2 8 (8 * n), Nat.mod_mul]

/-- A read of the bytes just written gives the low `8n` bits of the value written (R60, R61). -/
theorem readBytes_writeBytes {m : Memory} (h : Memory.wf m) (a n : Nat) (v : Word) :
    readBytes (writeBytes m a n v) a n = v.toNat % 2 ^ (8 * n) := by
  have := readBytes_of_bytes (m := writeBytes m a n v) (a := a) (n := n) (k := 0) (v := v)
    fun j hj => by
      rw [readByte_writeBytes h, if_pos ⟨by omega, by omega⟩]
      congr 2
      omega
  simpa using this

/-! ### Memory built at launch -/

/-- Placing an image keeps the canonical form. -/
theorem wf_placeImage {m : Memory} (h : Memory.wf m) (a : Nat) (ws : List InstrWord) :
    Memory.wf (placeImage m a ws) := by
  induction ws generalizing m a with
  | nil => exact h
  | cons w ws ih => exact ih (wf_writeBytes h _ _ _) _

/-- Placing bytes keeps the canonical form. -/
theorem wf_placeBytes {m : Memory} (h : Memory.wf m) (a : Nat) (bs : List Byte) :
    Memory.wf (placeBytes m a bs) := by
  induction bs generalizing m a with
  | nil => exact h
  | cons b bs ih => exact ih (wf_writeByte h _ _) _

/-- An image of `k` words lists addresses of its `4k` bytes only. -/
theorem mem_placeImage {m : Memory} {a : Nat} {ws : List InstrWord} {c : Host.Cell}
    (h : c ∈ placeImage m a ws) : c ∈ m ∨ (a ≤ c.1 ∧ c.1 < a + 4 * ws.length) := by
  induction ws generalizing m a with
  | nil => exact .inl h
  | cons w ws ih =>
    rw [List.length_cons]
    rcases ih h with h | h
    · rcases mem_writeBytes h with h | h
      · exact .inl h
      · exact .inr (by omega)
    · exact .inr (by omega)

/-- Placed bytes list addresses of their own range only. -/
theorem mem_placeBytes {m : Memory} {a : Nat} {bs : List Byte} {c : Host.Cell}
    (h : c ∈ placeBytes m a bs) : c ∈ m ∨ (a ≤ c.1 ∧ c.1 < a + bs.length) := by
  induction bs generalizing m a with
  | nil => exact .inl h
  | cons b bs ih =>
    rw [List.length_cons]
    rcases ih h with h | h
    · rcases mem_writeByte h with h | ⟨rfl, -⟩
      · exact .inl h
      · exact .inr ⟨Nat.le_refl a, show a < a + (bs.length + 1) by omega⟩
    · exact .inr (by omega)

/-- Reading a byte after placing an image outside its range. -/
theorem readByte_placeImage_of_outside {m : Memory} (h : Memory.wf m) {a : Nat}
    {ws : List InstrWord} {p : Nat} (hp : p < a ∨ a + 4 * ws.length ≤ p) :
    readByte (placeImage m a ws) p = readByte m p := by
  induction ws generalizing m a with
  | nil => rfl
  | cons w ws ih =>
    rw [List.length_cons] at hp
    rw [placeImage, ih (wf_writeBytes h _ _ _) (by omega), readByte_writeBytes h,
      if_neg (by omega)]

/-- Reading a byte after placing bytes. -/
theorem readByte_placeBytes {m : Memory} (h : Memory.wf m) (a : Nat) (bs : List Byte) (p : Nat) :
    readByte (placeBytes m a bs) p =
      if a ≤ p ∧ p < a + bs.length then bs.getD (p - a) 0#8 else readByte m p := by
  induction bs generalizing m a with
  | nil => rw [if_neg (by simp)]; rfl
  | cons b bs ih =>
    rw [placeBytes, ih (wf_writeByte h _ _), readByte_writeByte h, List.length_cons]
    by_cases h1 : a + 1 ≤ p ∧ p < a + 1 + bs.length
    · rw [if_pos h1, if_pos (by omega), show p - a = (p - (a + 1)) + 1 by omega,
        List.getD_cons_succ]
    · rw [if_neg h1]
      by_cases h2 : p = a
      · subst h2
        rw [if_pos rfl, if_pos (by omega)]
        simp
      · rw [if_neg h2, if_neg (by omega)]

end Sys2Proof.Machine
end

