-- ==== Sys2Proof/Laws/State.lean ====
section
/-! SUPPORT. One lemma per field of State for each operation that updates a state, so that no later
proof unfolds a record update; then the register file's read-after-write laws. -/

namespace Sys2Proof.Machine

/-! ### complete -/

@[simp] theorem complete_regs (k : CountClass) (p : Word) (s : State) : (complete k p s).regs = s.regs := rfl
@[simp] theorem complete_pc (k : CountClass) (p : Word) (s : State) : (complete k p s).pc = p := rfl
@[simp] theorem complete_cnt (k : CountClass) (p : Word) (s : State) : (complete k p s).cnt = count k s.cnt := rfl
@[simp] theorem complete_cfg (k : CountClass) (p : Word) (s : State) : (complete k p s).cfg = s.cfg := rfl
@[simp] theorem complete_status (k : CountClass) (p : Word) (s : State) : (complete k p s).status = s.status := rfl
@[simp] theorem complete_err (k : CountClass) (p : Word) (s : State) : (complete k p s).err = s.err := rfl
@[simp] theorem complete_mem (k : CountClass) (p : Word) (s : State) : (complete k p s).mem = s.mem := rfl
@[simp] theorem complete_lines (k : CountClass) (p : Word) (s : State) : (complete k p s).lines = s.lines := rfl
@[simp] theorem complete_trace (k : CountClass) (p : Word) (s : State) : (complete k p s).trace = s.trace := rfl

/-! ### raise -/

@[simp] theorem raise_regs (e : RunError) (s : State) : (raise e s).regs = s.regs := rfl
@[simp] theorem raise_pc (e : RunError) (s : State) : (raise e s).pc = s.pc := rfl
@[simp] theorem raise_cnt (e : RunError) (s : State) : (raise e s).cnt = s.cnt := rfl
@[simp] theorem raise_cfg (e : RunError) (s : State) : (raise e s).cfg = s.cfg := rfl
@[simp] theorem raise_status (e : RunError) (s : State) : (raise e s).status = .failed := rfl
@[simp] theorem raise_err (e : RunError) (s : State) : (raise e s).err = some e := rfl
@[simp] theorem raise_mem (e : RunError) (s : State) : (raise e s).mem = s.mem := rfl
@[simp] theorem raise_lines (e : RunError) (s : State) : (raise e s).lines = s.lines := rfl
@[simp] theorem raise_trace (e : RunError) (s : State) : (raise e s).trace = s.trace := rfl

/-! ### emit -/

@[simp] theorem emit_regs (e : FetchEvent) (s : State) : (emit e s).regs = s.regs := rfl
@[simp] theorem emit_pc (e : FetchEvent) (s : State) : (emit e s).pc = s.pc := rfl
@[simp] theorem emit_cnt (e : FetchEvent) (s : State) : (emit e s).cnt = s.cnt := rfl
@[simp] theorem emit_cfg (e : FetchEvent) (s : State) : (emit e s).cfg = s.cfg := rfl
@[simp] theorem emit_status (e : FetchEvent) (s : State) : (emit e s).status = s.status := rfl
@[simp] theorem emit_err (e : FetchEvent) (s : State) : (emit e s).err = s.err := rfl
@[simp] theorem emit_mem (e : FetchEvent) (s : State) : (emit e s).mem = s.mem := rfl
@[simp] theorem emit_lines (e : FetchEvent) (s : State) : (emit e s).lines = s.lines := rfl
@[simp] theorem emit_trace (e : FetchEvent) (s : State) : (emit e s).trace = e :: s.trace := rfl

/-! ### fillLine -/

@[simp] theorem fillLine_regs (a : Word) (w : InstrWord) (s : State) : (fillLine s a w).regs = s.regs := rfl
@[simp] theorem fillLine_pc (a : Word) (w : InstrWord) (s : State) : (fillLine s a w).pc = s.pc := rfl
@[simp] theorem fillLine_cnt (a : Word) (w : InstrWord) (s : State) : (fillLine s a w).cnt = s.cnt := rfl
@[simp] theorem fillLine_cfg (a : Word) (w : InstrWord) (s : State) : (fillLine s a w).cfg = s.cfg := rfl
@[simp] theorem fillLine_status (a : Word) (w : InstrWord) (s : State) : (fillLine s a w).status = s.status := rfl
@[simp] theorem fillLine_err (a : Word) (w : InstrWord) (s : State) : (fillLine s a w).err = s.err := rfl
@[simp] theorem fillLine_mem (a : Word) (w : InstrWord) (s : State) : (fillLine s a w).mem = s.mem := rfl
@[simp] theorem fillLine_lines (a : Word) (w : InstrWord) (s : State) : (fillLine s a w).lines = s.lines.set (lineIndex s.cfg a) { tag := a, valid := true, word := w } := rfl
@[simp] theorem fillLine_trace (a : Word) (w : InstrWord) (s : State) : (fillLine s a w).trace = s.trace := rfl

/-! ### setReg -/

@[simp] theorem setReg_pc (i : RegIdx) (v : Word) (s : State) : (setReg i v s).pc = s.pc := by
  unfold setReg; split <;> rfl
@[simp] theorem setReg_cnt (i : RegIdx) (v : Word) (s : State) : (setReg i v s).cnt = s.cnt := by
  unfold setReg; split <;> rfl
@[simp] theorem setReg_cfg (i : RegIdx) (v : Word) (s : State) : (setReg i v s).cfg = s.cfg := by
  unfold setReg; split <;> rfl
@[simp] theorem setReg_status (i : RegIdx) (v : Word) (s : State) : (setReg i v s).status = s.status := by
  unfold setReg; split <;> rfl
@[simp] theorem setReg_err (i : RegIdx) (v : Word) (s : State) : (setReg i v s).err = s.err := by
  unfold setReg; split <;> rfl
@[simp] theorem setReg_mem (i : RegIdx) (v : Word) (s : State) : (setReg i v s).mem = s.mem := by
  unfold setReg; split <;> rfl
@[simp] theorem setReg_lines (i : RegIdx) (v : Word) (s : State) : (setReg i v s).lines = s.lines := by
  unfold setReg; split <;> rfl
@[simp] theorem setReg_trace (i : RegIdx) (v : Word) (s : State) : (setReg i v s).trace = s.trace := by
  unfold setReg; split <;> rfl

@[simp] theorem setReg_zero (v : Word) (s : State) : setReg 0#5 v s = s := rfl

@[simp] theorem getReg_zero (s : State) : getReg 0#5 s = 0#64 := rfl

/-! ### Registers -/

/-- A register read depends on the register file alone. -/
theorem getReg_congr {s t : State} (h : s.regs = t.regs) (i : RegIdx) : getReg i s = getReg i t := by
  unfold getReg; simp [h]

@[simp] theorem getReg_complete (i : RegIdx) (k : CountClass) (p : Word) (s : State) :
    getReg i (complete k p s) = getReg i s := rfl

@[simp] theorem getReg_raise (i : RegIdx) (e : RunError) (s : State) :
    getReg i (raise e s) = getReg i s := rfl

@[simp] theorem getReg_emit (i : RegIdx) (e : FetchEvent) (s : State) :
    getReg i (emit e s) = getReg i s := rfl

@[simp] theorem getReg_fillLine (i : RegIdx) (a : Word) (w : InstrWord) (s : State) :
    getReg i (fillLine s a w) = getReg i s := rfl

@[simp] theorem getReg_withMem (i : RegIdx) (m : Memory) (s : State) :
    getReg i { s with mem := m } = getReg i s := rfl

/-- Reading a register after a write: the written value at the written register, unless that is
register 0, and the old value everywhere else (R21). -/
theorem getReg_setReg (r d : RegIdx) (v : Word) (s : State) :
    getReg r (setReg d v s) = if r = d ∧ d ≠ 0#5 then v else getReg r s := by
  unfold getReg setReg
  by_cases hd : d = 0#5
  · simp [hd]
  · by_cases hr : r = 0#5
    · subst hr
      have : ¬ (0#5 = d) := fun h => hd h.symm
      simp [this]
    · by_cases h : r = d
      · subst h; simp [hr]
      · have hn : d.toNat ≠ r.toNat := fun e => h (BitVec.eq_of_toNat_eq e.symm)
        simp [hd, hr, h, hn]

end Sys2Proof.Machine
end

