-- ==== Sys2Proof/Laws/Access.lean ====
section
/-! SUPPORT. What a data access and a fetch can answer (spec/20_memory.md R60, R61, R74): each
shared operation's answers, said once. -/

namespace Sys2Proof.Machine

/-! ### Bounds -/

theorem inCode_iff (c : Cfg) (a n : Nat) :
    inCode c a n = true ↔
      c.codeBase.toNat ≤ a ∧ a + n ≤ c.codeBase.toNat + 4 * c.codeWords := by
  simp [inCode]

theorem inStack_iff (c : Cfg) (a n : Nat) :
    inStack c a n = true ↔ c.stackBase.toNat ≤ a ∧ a + n ≤ c.stackBase.toNat + c.stackSize := by
  simp [inStack]

/-! ### Data accesses -/

theorem memRead_ok {s : State} {addr : Word} {n : Nat}
    (h : inCode s.cfg addr.toNat n = true ∨ inStack s.cfg addr.toNat n = true) :
    memRead s addr n = .ok (readBytes s.mem addr.toNat n) := by
  rw [memRead, if_pos (by simpa using h)]

theorem memRead_error {s : State} {addr : Word} {n : Nat}
    (h : ¬ (inCode s.cfg addr.toNat n = true ∨ inStack s.cfg addr.toNat n = true)) :
    memRead s addr n = .error (.memoryError .load addr n .outOfRange s.pc) := by
  rw [memRead, if_neg (by simpa using h)]

theorem memWrite_ok {s : State} {addr : Word} {n : Nat} {v : Word}
    (hc : inCode s.cfg addr.toNat n = false) (hs : inStack s.cfg addr.toNat n = true) :
    memWrite s addr n v = .ok { s with mem := writeBytes s.mem addr.toNat n v } := by
  rw [memWrite, if_neg (by simp [hc]), if_pos hs]

theorem memWrite_code {s : State} {addr : Word} {n : Nat} {v : Word}
    (hc : inCode s.cfg addr.toNat n = true) :
    memWrite s addr n v = .error (.memoryError .store addr n .writeToCode s.pc) := by
  rw [memWrite, if_pos hc]

theorem memWrite_outOfRange {s : State} {addr : Word} {n : Nat} {v : Word}
    (hc : inCode s.cfg addr.toNat n = false) (hs : inStack s.cfg addr.toNat n = false) :
    memWrite s addr n v = .error (.memoryError .store addr n .outOfRange s.pc) := by
  rw [memWrite, if_neg (by simp [hc]), if_neg (by simp [hs])]

/-- A load handler completes when its bytes lie in one segment. -/
theorem load_ok {n : Nat} {extend : Nat → Word} {rd rs1 : RegIdx} {imm : BitVec 12} {s : State}
    (h : inCode s.cfg (effectiveAddress rs1 imm s).toNat n = true ∨
      inStack s.cfg (effectiveAddress rs1 imm s).toNat n = true) :
    load n extend rd rs1 imm s =
      .next (complete .load (nextPc s)
        (setReg rd (extend (readBytes s.mem (effectiveAddress rs1 imm s).toNat n)) s)) := by
  rw [load, memRead_ok h]

/-- A load handler fails the run when they do not. -/
theorem load_error {n : Nat} {extend : Nat → Word} {rd rs1 : RegIdx} {imm : BitVec 12} {s : State}
    (h : ¬ (inCode s.cfg (effectiveAddress rs1 imm s).toNat n = true ∨
      inStack s.cfg (effectiveAddress rs1 imm s).toNat n = true)) :
    load n extend rd rs1 imm s =
      .next (raise (.memoryError .load (effectiveAddress rs1 imm s) n .outOfRange s.pc) s) := by
  rw [load, memRead_error h]

/-- A store handler completes when its bytes lie in the stack segment and not in the code
segment. -/
theorem store_ok {n : Nat} {rs2 rs1 : RegIdx} {imm : BitVec 12} {s : State}
    (hc : inCode s.cfg (effectiveAddress rs1 imm s).toNat n = false)
    (hs : inStack s.cfg (effectiveAddress rs1 imm s).toNat n = true) :
    store n rs2 rs1 imm s =
      .next (complete .store (nextPc s)
        { s with
          mem := writeBytes s.mem (effectiveAddress rs1 imm s).toNat n (getReg rs2 s) }) := by
  rw [store, memWrite_ok hc hs]

/-- Everything a store handler can answer. -/
theorem store_cases (n : Nat) (rs2 rs1 : RegIdx) (imm : BitVec 12) (s : State) :
    (inCode s.cfg (effectiveAddress rs1 imm s).toNat n = false ∧
        inStack s.cfg (effectiveAddress rs1 imm s).toNat n = true ∧
        store n rs2 rs1 imm s =
          .next (complete .store (nextPc s)
            { s with
              mem := writeBytes s.mem (effectiveAddress rs1 imm s).toNat n (getReg rs2 s) })) ∨
      ∃ r, store n rs2 rs1 imm s =
        .next (raise (.memoryError .store (effectiveAddress rs1 imm s) n r s.pc) s) := by
  cases hc : inCode s.cfg (effectiveAddress rs1 imm s).toNat n
  · cases hs : inStack s.cfg (effectiveAddress rs1 imm s).toNat n
    · exact .inr ⟨_, by rw [store, memWrite_outOfRange hc hs]⟩
    · exact .inl ⟨rfl, rfl, store_ok hc hs⟩
  · exact .inr ⟨_, by rw [store, memWrite_code hc]⟩

/-! ### Fetching -/

/-- Everything a fetch that answers a word can have done: a hit, which changes no line, or a miss in
the code segment, which fills the one line the index selects (R72, R73, R74). -/
theorem fetchWord_word {a : Word} {s s' : State} {iw : InstrWord}
    (h : fetchWord a s = .word iw s') :
    (lookup s a = some iw ∧ s' = emit (.hit a) s) ∨
      (lookup s a = none ∧ inCode s.cfg a.toNat 4 = true ∧ iw = codeWord s.mem a.toNat ∧
        s' = fillLine (emit (.miss a) s) a iw) := by
  unfold fetchWord at h
  split at h
  · rename_i w hl
    cases h
    exact .inl ⟨hl, rfl⟩
  · rename_i hl
    split at h
    · rename_i hc
      cases h
      exact .inr ⟨hl, hc, rfl, rfl⟩
    · cases h

/-- Everything a fetch that answers an error can have met: a miss outside the code segment (R59,
R76). -/
theorem fetchWord_error {a : Word} {s : State} {e : RunError} (h : fetchWord a s = .error e) :
    lookup s a = none ∧ inCode s.cfg a.toNat 4 = false ∧
      e = .memoryError .fetch a 4 .fetchOutsideCode s.pc := by
  unfold fetchWord at h
  split at h
  · cases h
  · rename_i hl
    split at h
    · cases h
    · rename_i hc
      cases h
      exact ⟨hl, by simpa using hc, rfl⟩

/-- A hit is a valid line at the index with the whole address as tag (R72). -/
theorem lookup_some {s : State} {a : Word} {iw : InstrWord} (h : lookup s a = some iw) :
    ∃ l, s.lines[lineIndex s.cfg a]? = some l ∧ l.valid = true ∧ l.tag = a ∧ l.word = iw := by
  unfold lookup at h
  split at h
  · rename_i l hl
    split at h
    · rename_i hv
      simp only [Bool.and_eq_true, beq_iff_eq] at hv
      exact ⟨l, hl, hv.1, hv.2, by simpa using h⟩
    · cases h
  · cases h

/-- What a fetch leaves alone: everything but the lines and the trace. -/
theorem fetchWord_keeps {a : Word} {s s' : State} {iw : InstrWord}
    (h : fetchWord a s = .word iw s') :
    s'.regs = s.regs ∧ s'.pc = s.pc ∧ s'.cnt = s.cnt ∧ s'.cfg = s.cfg ∧ s'.status = s.status ∧
      s'.err = s.err ∧ s'.mem = s.mem := by
  rcases fetchWord_word h with ⟨-, rfl⟩ | ⟨-, -, -, rfl⟩ <;> simp

end Sys2Proof.Machine
end

