-- ==== Sys2Proof/Laws/Encoding.lean ====
section
/-! SUPPORT. The fields of each layout: reading back what the encoder put in (spec/30_encoding.md
R91 to R96), through the unsigned value of a word. -/

namespace Sys2Proof

open Sys2Proof.Machine.BitField

/-- The unsigned value of a concatenation. -/
theorem toNat_append_add {m n : Nat} (a : BitVec m) (b : BitVec n) :
    (a ++ b).toNat = a.toNat * 2 ^ n + b.toNat := by
  rw [BitVec.toNat_append, ← Nat.shiftLeft_add_eq_or_of_lt b.isLt, Nat.shiftLeft_eq]

/-- The unsigned value of a field. -/
theorem toNat_field (iw : InstrWord) (start n : Nat) :
    (field iw start n).toNat = iw.toNat / 2 ^ start % 2 ^ n := by
  rw [field, BitVec.extractLsb'_toNat, Nat.shiftRight_eq_div_pow]

/-- The unsigned value of a slice of an immediate. -/
theorem toNat_slice {w : Nat} (v : BitVec w) (start n : Nat) :
    (v.extractLsb' start n).toNat = v.toNat / 2 ^ start % 2 ^ n := by
  rw [BitVec.extractLsb'_toNat, Nat.shiftRight_eq_div_pow]

/-- A bit is 0 exactly when the value is even. -/
theorem even_of_bit_zero {w : Nat} {v : BitVec w} (h : (!v.getLsbD 0) = true) :
    v.toNat % 2 = 0 := by
  simp [BitVec.getLsbD, Nat.testBit_zero] at h
  exact h

theorem toNat_rWord (f7 : BitVec 7) (rs2 rs1 : RegIdx) (f3 : BitVec 3) (rd : RegIdx)
    (op : BitVec 7) :
    (rWord f7 rs2 rs1 f3 rd op).toNat =
      f7.toNat * 2 ^ 25 + rs2.toNat * 2 ^ 20 + rs1.toNat * 2 ^ 15 + f3.toNat * 2 ^ 12 +
        rd.toNat * 2 ^ 7 + op.toNat := by
  unfold rWord
  rw [toNat_append_add, toNat_append_add, toNat_append_add, toNat_append_add, toNat_append_add]
  omega

/-- The I layout is the R layout with the immediate in the place of funct7 and rs2 (R93). -/
theorem toNat_iWord (imm : BitVec 12) (rs1 : RegIdx) (f3 : BitVec 3) (rd : RegIdx)
    (op : BitVec 7) :
    (iWord imm rs1 f3 rd op).toNat =
      imm.toNat * 2 ^ 20 + rs1.toNat * 2 ^ 15 + f3.toNat * 2 ^ 12 + rd.toNat * 2 ^ 7 +
        op.toNat := by
  unfold iWord
  rw [toNat_append_add, toNat_append_add, toNat_append_add, toNat_append_add]
  omega

/-- The S layout, as the R layout with the immediate in the places of funct7 and rd (R94). -/
theorem sWord_eq (imm : BitVec 12) (rs2 rs1 : RegIdx) (f3 : BitVec 3) (op : BitVec 7) :
    sWord imm rs2 rs1 f3 op =
      rWord (imm.extractLsb' 5 7) rs2 rs1 f3 (imm.extractLsb' 0 5) op := rfl

/-- The B layout, as the R layout with the offset in the places of funct7 and rd (R95). -/
theorem bWord_eq (offset : BitVec 13) (rs2 rs1 : RegIdx) (f3 : BitVec 3) (op : BitVec 7) :
    bWord offset rs2 rs1 f3 op =
      rWord (offset.extractLsb' 12 1 ++ offset.extractLsb' 5 6) rs2 rs1 f3
        (offset.extractLsb' 1 4 ++ offset.extractLsb' 11 1) op := by
  apply BitVec.eq_of_toNat_eq
  rw [toNat_rWord, toNat_append_add, toNat_append_add]
  unfold bWord
  rw [toNat_append_add, toNat_append_add, toNat_append_add, toNat_append_add, toNat_append_add,
    toNat_append_add, toNat_append_add]
  omega

theorem toNat_jWord (offset : BitVec 21) (rd : RegIdx) (op : BitVec 7) :
    (jWord offset rd op).toNat =
      (offset.extractLsb' 20 1).toNat * 2 ^ 31 + (offset.extractLsb' 1 10).toNat * 2 ^ 21 +
        (offset.extractLsb' 11 1).toNat * 2 ^ 20 + (offset.extractLsb' 12 8).toNat * 2 ^ 12 +
        rd.toNat * 2 ^ 7 + op.toNat := by
  unfold jWord
  rw [toNat_append_add, toNat_append_add, toNat_append_add, toNat_append_add, toNat_append_add]
  omega

/-! ### Fields of the R layout; of the S and B layouts through `sWord_eq` and `bWord_eq` -/

section
variable (f7 : BitVec 7) (rs2 rs1 : RegIdx) (f3 : BitVec 3) (rd : RegIdx) (op : BitVec 7)

@[simp] theorem fieldOpcode_rWord : fieldOpcode (rWord f7 rs2 rs1 f3 rd op) = op := by
  apply BitVec.eq_of_toNat_eq
  rw [fieldOpcode, toNat_field, toNat_rWord]
  have := op.isLt
  omega

@[simp] theorem fieldRd_rWord : fieldRd (rWord f7 rs2 rs1 f3 rd op) = rd := by
  apply BitVec.eq_of_toNat_eq
  rw [fieldRd, toNat_field, toNat_rWord]
  have := op.isLt
  have := rd.isLt
  omega

@[simp] theorem fieldFunct3_rWord : fieldFunct3 (rWord f7 rs2 rs1 f3 rd op) = f3 := by
  apply BitVec.eq_of_toNat_eq
  rw [fieldFunct3, toNat_field, toNat_rWord]
  have := op.isLt
  have := rd.isLt
  have := f3.isLt
  omega

@[simp] theorem fieldRs1_rWord : fieldRs1 (rWord f7 rs2 rs1 f3 rd op) = rs1 := by
  apply BitVec.eq_of_toNat_eq
  rw [fieldRs1, toNat_field, toNat_rWord]
  have := op.isLt
  have := rd.isLt
  have := f3.isLt
  have := rs1.isLt
  omega

@[simp] theorem fieldRs2_rWord : fieldRs2 (rWord f7 rs2 rs1 f3 rd op) = rs2 := by
  apply BitVec.eq_of_toNat_eq
  rw [fieldRs2, toNat_field, toNat_rWord]
  have := op.isLt
  have := rd.isLt
  have := f3.isLt
  have := rs1.isLt
  have := rs2.isLt
  omega

@[simp] theorem fieldFunct7_rWord : fieldFunct7 (rWord f7 rs2 rs1 f3 rd op) = f7 := by
  apply BitVec.eq_of_toNat_eq
  rw [fieldFunct7, toNat_field, toNat_rWord]
  have := op.isLt
  have := rd.isLt
  have := f3.isLt
  have := rs1.isLt
  have := rs2.isLt
  have := f7.isLt
  omega

end

/-! ### Fields of the I layout -/

section
variable (imm : BitVec 12) (rs1 : RegIdx) (f3 : BitVec 3) (rd : RegIdx) (op : BitVec 7)

@[simp] theorem fieldOpcode_iWord : fieldOpcode (iWord imm rs1 f3 rd op) = op := by
  apply BitVec.eq_of_toNat_eq
  rw [fieldOpcode, toNat_field, toNat_iWord]
  have := op.isLt
  omega

@[simp] theorem fieldRd_iWord : fieldRd (iWord imm rs1 f3 rd op) = rd := by
  apply BitVec.eq_of_toNat_eq
  rw [fieldRd, toNat_field, toNat_iWord]
  have := op.isLt
  have := rd.isLt
  omega

@[simp] theorem fieldFunct3_iWord : fieldFunct3 (iWord imm rs1 f3 rd op) = f3 := by
  apply BitVec.eq_of_toNat_eq
  rw [fieldFunct3, toNat_field, toNat_iWord]
  have := op.isLt
  have := rd.isLt
  have := f3.isLt
  omega

@[simp] theorem fieldRs1_iWord : fieldRs1 (iWord imm rs1 f3 rd op) = rs1 := by
  apply BitVec.eq_of_toNat_eq
  rw [fieldRs1, toNat_field, toNat_iWord]
  have := op.isLt
  have := rd.isLt
  have := f3.isLt
  have := rs1.isLt
  omega

@[simp] theorem immI_iWord : immI (iWord imm rs1 f3 rd op) = imm := by
  apply BitVec.eq_of_toNat_eq
  rw [immI, toNat_field, toNat_iWord]
  have := op.isLt
  have := rd.isLt
  have := f3.isLt
  have := rs1.isLt
  have := imm.isLt
  omega

end

/-! ### Opcodes of the S, B and J layouts -/

@[simp] theorem fieldOpcode_sWord (imm : BitVec 12) (rs2 rs1 : RegIdx) (f3 : BitVec 3)
    (op : BitVec 7) : fieldOpcode (sWord imm rs2 rs1 f3 op) = op := by
  rw [sWord_eq, fieldOpcode_rWord]

@[simp] theorem fieldOpcode_bWord (offset : BitVec 13) (rs2 rs1 : RegIdx) (f3 : BitVec 3)
    (op : BitVec 7) : fieldOpcode (bWord offset rs2 rs1 f3 op) = op := by
  rw [bWord_eq, fieldOpcode_rWord]

@[simp] theorem fieldOpcode_jWord (offset : BitVec 21) (rd : RegIdx) (op : BitVec 7) :
    fieldOpcode (jWord offset rd op) = op := by
  apply BitVec.eq_of_toNat_eq
  rw [fieldOpcode, toNat_field, toNat_jWord]
  have := op.isLt
  omega

/-! ### Immediates -/

/-- The unsigned values of the assembled immediates (R98 to R100). -/
theorem toNat_immS (iw : InstrWord) :
    (immS iw).toNat = (field iw 25 7).toNat * 2 ^ 5 + (field iw 7 5).toNat := by
  unfold immS
  rw [toNat_append_add]

theorem toNat_immB (iw : InstrWord) :
    (immB iw).toNat =
      (field iw 31 1).toNat * 2 ^ 12 + (field iw 7 1).toNat * 2 ^ 11 +
        (field iw 25 6).toNat * 2 ^ 5 + (field iw 8 4).toNat * 2 := by
  unfold immB
  rw [toNat_append_add, toNat_append_add, toNat_append_add, toNat_append_add, BitVec.toNat_ofNat]
  omega

theorem toNat_immJ (iw : InstrWord) :
    (immJ iw).toNat =
      (field iw 31 1).toNat * 2 ^ 20 + (field iw 12 8).toNat * 2 ^ 12 +
        (field iw 20 1).toNat * 2 ^ 11 + (field iw 21 10).toNat * 2 := by
  unfold immJ
  rw [toNat_append_add, toNat_append_add, toNat_append_add, toNat_append_add, BitVec.toNat_ofNat]
  omega

/-- B and J offsets are even (R99, R100). -/
theorem immB_even (iw : InstrWord) : (!(immB iw).getLsbD 0) = true := by
  have h := toNat_immB iw
  simp only [BitVec.getLsbD, Nat.testBit_zero]
  have : (immB iw).toNat % 2 = 0 := by omega
  simp [this]

theorem immJ_even (iw : InstrWord) : (!(immJ iw).getLsbD 0) = true := by
  have h := toNat_immJ iw
  simp only [BitVec.getLsbD, Nat.testBit_zero]
  have : (immJ iw).toNat % 2 = 0 := by omega
  simp [this]

/-! ### Reading back the immediates of the S, B and J layouts -/

section
variable (imm : BitVec 12) (rs2 rs1 : RegIdx) (f3 : BitVec 3) (rd : RegIdx) (op : BitVec 7)

@[simp] theorem immS_sWord : immS (sWord imm rs2 rs1 f3 op) = imm := by
  apply BitVec.eq_of_toNat_eq
  have a : field (sWord imm rs2 rs1 f3 op) 25 7 = imm.extractLsb' 5 7 := by
    rw [sWord_eq]
    exact fieldFunct7_rWord ..
  have b : field (sWord imm rs2 rs1 f3 op) 7 5 = imm.extractLsb' 0 5 := by
    rw [sWord_eq]
    exact fieldRd_rWord ..
  rw [toNat_immS, a, b, toNat_slice, toNat_slice]
  have := imm.isLt
  omega

/-- The unsigned value of the B layout, by its pieces. -/
theorem toNat_bWord (o : BitVec 13) :
    (bWord o rs2 rs1 f3 op).toNat =
      (o.extractLsb' 12 1).toNat * 2 ^ 31 + (o.extractLsb' 5 6).toNat * 2 ^ 25 +
        rs2.toNat * 2 ^ 20 + rs1.toNat * 2 ^ 15 + f3.toNat * 2 ^ 12 +
        (o.extractLsb' 1 4).toNat * 2 ^ 8 + (o.extractLsb' 11 1).toNat * 2 ^ 7 + op.toNat := by
  rw [bWord_eq, toNat_rWord, toNat_append_add, toNat_append_add]
  omega

theorem immB_bWord {o : BitVec 13} (ho : (!o.getLsbD 0) = true) :
    immB (bWord o rs2 rs1 f3 op) = o := by
  have he := even_of_bit_zero ho
  have h := toNat_bWord rs2 rs1 f3 op o
  have h1 := (o.extractLsb' 12 1).isLt
  have h2 := (o.extractLsb' 5 6).isLt
  have h3 := (o.extractLsb' 1 4).isLt
  have h4 := (o.extractLsb' 11 1).isLt
  have h5 := rs2.isLt
  have h6 := rs1.isLt
  have h7 := f3.isLt
  have h8 := op.isLt
  have e1 : (bWord o rs2 rs1 f3 op).toNat / 2 ^ 31 % 2 ^ 1 = (o.extractLsb' 12 1).toNat := by
    omega
  have e2 : (bWord o rs2 rs1 f3 op).toNat / 2 ^ 25 % 2 ^ 6 = (o.extractLsb' 5 6).toNat := by
    omega
  have e3 : (bWord o rs2 rs1 f3 op).toNat / 2 ^ 8 % 2 ^ 4 = (o.extractLsb' 1 4).toNat := by
    omega
  have e4 : (bWord o rs2 rs1 f3 op).toNat / 2 ^ 7 % 2 ^ 1 = (o.extractLsb' 11 1).toNat := by
    omega
  apply BitVec.eq_of_toNat_eq
  rw [toNat_immB, toNat_field, toNat_field, toNat_field, toNat_field, e1, e2, e3, e4,
    toNat_slice, toNat_slice, toNat_slice, toNat_slice]
  have := o.isLt
  omega

@[simp] theorem fieldRd_jWord (o : BitVec 21) : fieldRd (jWord o rd op) = rd := by
  apply BitVec.eq_of_toNat_eq
  rw [fieldRd, toNat_field, toNat_jWord]
  have := rd.isLt
  have := op.isLt
  omega

theorem immJ_jWord {o : BitVec 21} (ho : (!o.getLsbD 0) = true) : immJ (jWord o rd op) = o := by
  have he := even_of_bit_zero ho
  have h := toNat_jWord o rd op
  have h1 := (o.extractLsb' 20 1).isLt
  have h2 := (o.extractLsb' 1 10).isLt
  have h3 := (o.extractLsb' 11 1).isLt
  have h4 := (o.extractLsb' 12 8).isLt
  have h5 := rd.isLt
  have h6 := op.isLt
  have e1 : (jWord o rd op).toNat / 2 ^ 31 % 2 ^ 1 = (o.extractLsb' 20 1).toNat := by omega
  have e2 : (jWord o rd op).toNat / 2 ^ 12 % 2 ^ 8 = (o.extractLsb' 12 8).toNat := by omega
  have e3 : (jWord o rd op).toNat / 2 ^ 20 % 2 ^ 1 = (o.extractLsb' 11 1).toNat := by omega
  have e4 : (jWord o rd op).toNat / 2 ^ 21 % 2 ^ 10 = (o.extractLsb' 1 10).toNat := by omega
  apply BitVec.eq_of_toNat_eq
  rw [toNat_immJ, toNat_field, toNat_field, toNat_field, toNat_field, e1, e2, e3, e4,
    toNat_slice, toNat_slice, toNat_slice, toNat_slice]
  have := o.isLt
  omega

/-! ### Fields of the S and B layouts -/

@[simp] theorem fieldFunct3_sWord : fieldFunct3 (sWord imm rs2 rs1 f3 op) = f3 := by
  rw [sWord_eq, fieldFunct3_rWord]
@[simp] theorem fieldRs1_sWord : fieldRs1 (sWord imm rs2 rs1 f3 op) = rs1 := by
  rw [sWord_eq, fieldRs1_rWord]
@[simp] theorem fieldRs2_sWord : fieldRs2 (sWord imm rs2 rs1 f3 op) = rs2 := by
  rw [sWord_eq, fieldRs2_rWord]
@[simp] theorem fieldFunct3_bWord (o : BitVec 13) :
    fieldFunct3 (bWord o rs2 rs1 f3 op) = f3 := by
  rw [bWord_eq, fieldFunct3_rWord]
@[simp] theorem fieldRs1_bWord (o : BitVec 13) : fieldRs1 (bWord o rs2 rs1 f3 op) = rs1 := by
  rw [bWord_eq, fieldRs1_rWord]
@[simp] theorem fieldRs2_bWord (o : BitVec 13) : fieldRs2 (bWord o rs2 rs1 f3 op) = rs2 := by
  rw [bWord_eq, fieldRs2_rWord]

end

/-! ### Classification -/

/-- The class of a word is the class whose opcode it holds (R101). -/
theorem classify_of_opcode {iw : InstrWord} {f : Format} (h : fieldOpcode iw = f.opcode) :
    classify iw = some f := by
  unfold classify
  rw [h]
  cases f <;> rfl

/-- The opcode a classified word holds (R101). -/
theorem opcode_of_classify {iw : InstrWord} {f : Format} (h : classify iw = some f) :
    fieldOpcode iw = f.opcode := by
  unfold classify at h
  simp only at h
  repeat' split at h
  all_goals first
    | (cases h; assumption)
    | cases h

end Sys2Proof
end

