-- ==== Sys2Proof/Laws/Launch.lean ====
section
/-! SUPPORT. Launch (spec/10_state.md R37): what it accepts, that the reset state is one of the
launch states, and the canonical form of the memory it builds. -/

namespace Sys2Proof.Machine

/-- A launch that answers a next state had a configuration R7 allows and an image of `CODE_WORDS`
words, and that state is the launch state. -/
theorem launch_next {p : LaunchArgs} {s : State} (h : launch p = .next s) :
    cfgValid p.cfg = true ∧ p.image.length = p.cfg.codeWords ∧ s = launchState p := by
  unfold launch at h
  split at h
  · rename_i hc
    simp only [Bool.and_eq_true, beq_iff_eq] at hc
    cases h
    exact ⟨hc.1, hc.2, rfl⟩
  · cases h

/-- The reset state is the launch state of `resetArgs`: memory lists nothing, for every byte of that
launch is `Config.unlistedByte`. -/
theorem launchState_resetArgs : launchState resetArgs = State.reset := by decide

/-- Launch accepts `resetArgs`. -/
theorem launch_resetArgs : launch resetArgs = .next State.reset := by
  rw [launch, if_pos (by decide), launchState_resetArgs]

/-- The reset state's memory is in its canonical form. -/
theorem reset_mem_wf : Memory.wf State.reset.mem := by decide

/-- The memory launch builds is in its canonical form. -/
theorem wf_launchMem (p : LaunchArgs) : Memory.wf (launchMem p) :=
  wf_placeBytes (wf_placeImage ⟨List.Pairwise.nil, by simp⟩ _ _) _ _

/-- `init()` leaves `CACHE_LINES` lines. -/
@[simp] theorem length_initCache (n : Nat) (before : List CacheLine) :
    (initCache n before).length = n := by
  simp [initCache]

/-- `init()` clears every valid flag (R75). -/
theorem initCache_valid {n : Nat} {before : List CacheLine} {l : CacheLine}
    (h : l ∈ initCache n before) : l.valid = false := by
  simp only [initCache, List.mem_map] at h
  obtain ⟨i, -, rfl⟩ := h
  rfl

/-- The constraints of R7, as facts about numbers. -/
theorem cfgValid_iff (c : Cfg) :
    cfgValid c = true ↔
      c.codeBase.toNat % 4 = 0 ∧ 1 ≤ c.codeWords ∧
        c.codeBase.toNat + 4 * c.codeWords ≤ 2 ^ 64 ∧ 1 ≤ c.stackSize ∧
        c.stackBase.toNat + c.stackSize < 2 ^ 64 ∧
        (c.codeBase.toNat + 4 * c.codeWords ≤ c.stackBase.toNat ∨
          c.stackBase.toNat + c.stackSize ≤ c.codeBase.toNat) ∧
        isPowerOfTwo c.cacheLines = true ∧ c.stop.toNat % 4 = 0 ∧
        (c.stop.toNat < c.codeBase.toNat ∨
          c.codeBase.toNat + 4 * c.codeWords ≤ c.stop.toNat) := by
  simp [cfgValid, aligned, and_assoc]

/-- `CACHE_LINES` of a valid configuration is a power of two, so at least 1. -/
theorem isPowerOfTwo_iff (n : Nat) : isPowerOfTwo n = true ↔ ∃ m, n = 2 ^ m := by
  constructor
  · intro h
    simp only [isPowerOfTwo, Bool.and_eq_true, beq_iff_eq] at h
    exact ⟨n.log2, h.2.symm⟩
  · rintro ⟨m, rfl⟩
    simp [isPowerOfTwo, Nat.log2_two_pow]

end Sys2Proof.Machine
end

