-- ==== Sys2Proof/Laws/PerInstr.lean ====
section
/-! SUPPORT. The per-instruction family EncodeFormat: the encoder gives every instruction the opcode
of its class, so the decoder classifies the word as that class (spec/30_encoding.md R101). -/

namespace Sys2Proof.Laws.EncodeFormat

/-- The word of `i` classifies as the class of `i`. -/
def Statement (i : Instr) : Prop := classify (encode i) = some i.format

theorem of_opcode {i : Instr} (h : fieldOpcode (encode i) = i.format.opcode) : Statement i :=
  classify_of_opcode h

theorem add (rd rs1 rs2 : RegIdx) : Statement (.add rd rs1 rs2) :=
  of_opcode (fieldOpcode_rWord _ _ _ _ _ _)
theorem sub (rd rs1 rs2 : RegIdx) : Statement (.sub rd rs1 rs2) :=
  of_opcode (fieldOpcode_rWord _ _ _ _ _ _)
theorem mul (rd rs1 rs2 : RegIdx) : Statement (.mul rd rs1 rs2) :=
  of_opcode (fieldOpcode_rWord _ _ _ _ _ _)
theorem sll (rd rs1 rs2 : RegIdx) : Statement (.sll rd rs1 rs2) :=
  of_opcode (fieldOpcode_rWord _ _ _ _ _ _)
theorem srl (rd rs1 rs2 : RegIdx) : Statement (.srl rd rs1 rs2) :=
  of_opcode (fieldOpcode_rWord _ _ _ _ _ _)
theorem and (rd rs1 rs2 : RegIdx) : Statement (.and rd rs1 rs2) :=
  of_opcode (fieldOpcode_rWord _ _ _ _ _ _)
theorem sllw (rd rs1 rs2 : RegIdx) : Statement (.sllw rd rs1 rs2) :=
  of_opcode (fieldOpcode_rWord _ _ _ _ _ _)
theorem sraw (rd rs1 rs2 : RegIdx) : Statement (.sraw rd rs1 rs2) :=
  of_opcode (fieldOpcode_rWord _ _ _ _ _ _)
theorem addi (rd rs1 : RegIdx) (imm : BitVec 12) : Statement (.addi rd rs1 imm) :=
  of_opcode (fieldOpcode_iWord _ _ _ _ _)
theorem srli (rd rs1 : RegIdx) (shamt : BitVec 5) (ignored : BitVec 7) :
    Statement (.srli rd rs1 shamt ignored) :=
  of_opcode (fieldOpcode_rWord _ _ _ _ _ _)
theorem lb (rd rs1 : RegIdx) (imm : BitVec 12) : Statement (.lb rd rs1 imm) :=
  of_opcode (fieldOpcode_iWord _ _ _ _ _)
theorem lw (rd rs1 : RegIdx) (imm : BitVec 12) : Statement (.lw rd rs1 imm) :=
  of_opcode (fieldOpcode_iWord _ _ _ _ _)
theorem ld (rd rs1 : RegIdx) (imm : BitVec 12) : Statement (.ld rd rs1 imm) :=
  of_opcode (fieldOpcode_iWord _ _ _ _ _)
theorem sb (rs2 rs1 : RegIdx) (imm : BitVec 12) : Statement (.sb rs2 rs1 imm) :=
  of_opcode (fieldOpcode_sWord _ _ _ _ _)
theorem sw (rs2 rs1 : RegIdx) (imm : BitVec 12) : Statement (.sw rs2 rs1 imm) :=
  of_opcode (fieldOpcode_sWord _ _ _ _ _)
theorem sd (rs2 rs1 : RegIdx) (imm : BitVec 12) : Statement (.sd rs2 rs1 imm) :=
  of_opcode (fieldOpcode_sWord _ _ _ _ _)
theorem beq (rs1 rs2 : RegIdx) (offset : BitVec 13) : Statement (.beq rs1 rs2 offset) :=
  of_opcode (fieldOpcode_bWord _ _ _ _ _)
theorem bne (rs1 rs2 : RegIdx) (offset : BitVec 13) : Statement (.bne rs1 rs2 offset) :=
  of_opcode (fieldOpcode_bWord _ _ _ _ _)
theorem blt (rs1 rs2 : RegIdx) (offset : BitVec 13) : Statement (.blt rs1 rs2 offset) :=
  of_opcode (fieldOpcode_bWord _ _ _ _ _)
theorem bge (rs1 rs2 : RegIdx) (offset : BitVec 13) : Statement (.bge rs1 rs2 offset) :=
  of_opcode (fieldOpcode_bWord _ _ _ _ _)
theorem jal (rd : RegIdx) (offset : BitVec 21) : Statement (.jal rd offset) :=
  of_opcode (fieldOpcode_jWord _ _ _)
theorem jalr (rd : RegIdx) (funct3 : BitVec 3) (rs1 : RegIdx) (imm : BitVec 12) :
    Statement (.jalr rd funct3 rs1 imm) :=
  of_opcode (fieldOpcode_iWord _ _ _ _ _)

end Sys2Proof.Laws.EncodeFormat
end

