-- ==== Sys2Proof/Laws/Step.lean ====
section
/-! SUPPORT. Everything `exec` and `step` can do, said once: an instruction completes with a register
written, completes with bytes stored in the stack segment, or fails the run; a step stops, fails in
one of its checks, or executes the decoded instruction. -/

namespace Sys2Proof.Machine

/-! ### Parity of targets -/

/-- A sum keeps the parity of its operands' sum. -/
theorem add_mod_two (a b : Word) : (a + b).toNat % 2 = (a.toNat + b.toNat) % 2 := by
  rw [BitVec.toNat_add]
  omega

/-- Sign extension keeps bit 0. -/
theorem sext_mod_two {n : Nat} (hn : 0 < n) (v : BitVec n) :
    (sext v).toNat % 2 = v.toNat % 2 := by
  have h : (sext v).getLsbD 0 = v.getLsbD 0 := by
    rw [sext, BitVec.getLsbD_signExtend]
    simp only [hn, if_true, decide_true, Bool.true_and, Nat.zero_lt_succ]
  simp only [BitVec.getLsbD, Nat.testBit_zero] at h
  have h1 := Nat.mod_two_eq_zero_or_one (sext v).toNat
  have h2 := Nat.mod_two_eq_zero_or_one v.toNat
  simp only [decide_eq_decide] at h
  omega

/-- The address of the next instruction is even when the pc is. -/
theorem nextPc_even {s : State} (h : s.pc.toNat % 2 = 0) : (nextPc s).toNat % 2 = 0 := by
  rw [nextPc, add_mod_two, BitVec.toNat_ofNat]
  omega

/-- The target of an even offset is even when the pc is (R180, R190). -/
theorem relativeTarget_even {n : Nat} (hn : 0 < n) {offset : BitVec n} {s : State}
    (ho : (!offset.getLsbD 0) = true) (h : s.pc.toNat % 2 = 0) :
    (relativeTarget offset s).toNat % 2 = 0 := by
  rw [relativeTarget, add_mod_two]
  have h1 := sext_mod_two hn offset
  have h2 := even_of_bit_zero ho
  omega

/-- The target of `jalr` is even: bit 0 is cleared (R191). -/
theorem jalrTarget_even (rs1 : RegIdx) (imm : BitVec 12) (s : State) :
    (jalrTarget rs1 imm s).toNat % 2 = 0 := by
  have h : (jalrTarget rs1 imm s).getLsbD 0 = false := by
    unfold jalrTarget
    rw [BitVec.getLsbD_and]
    simp
  simpa [BitVec.getLsbD, Nat.testBit_zero] using h

/-! ### Executing -/

/-- Everything an instruction can do. The pc it leaves is even when the instruction is well formed
and the pc was even. -/
theorem exec_cases (i : Instr) (s : State) :
    (∃ k p rd v, exec i s = .next (complete k p (setReg rd v s)) ∧
        (i.wellFormed = true → s.pc.toNat % 2 = 0 → p.toNat % 2 = 0)) ∨
      (∃ a n v, inCode s.cfg a n = false ∧ inStack s.cfg a n = true ∧ 0 < n ∧
        exec i s =
          .next (complete .store (nextPc s) { s with mem := writeBytes s.mem a n v })) ∨
      (∃ e, exec i s = .next (raise e s)) := by
  have arith : ∀ rd v, ∃ k p rd' v', writeResult rd v s = .next (complete k p (setReg rd' v' s)) ∧
      (i.wellFormed = true → s.pc.toNat % 2 = 0 → p.toNat % 2 = 0) :=
    fun rd v => ⟨_, _, _, _, rfl, fun _ h => nextPc_even h⟩
  have ld : ∀ n extend rd rs1 imm,
      (∃ k p rd' v, load n extend rd rs1 imm s = .next (complete k p (setReg rd' v s)) ∧
        (i.wellFormed = true → s.pc.toNat % 2 = 0 → p.toNat % 2 = 0)) ∨
      (∃ e, load n extend rd rs1 imm s = .next (raise e s)) := fun n extend rd rs1 imm => by
    by_cases h : inCode s.cfg (effectiveAddress rs1 imm s).toNat n = true ∨
        inStack s.cfg (effectiveAddress rs1 imm s).toNat n = true
    · exact .inl ⟨_, _, _, _, load_ok h, fun _ h => nextPc_even h⟩
    · exact .inr ⟨_, load_error h⟩
  have st : ∀ n rs2 rs1 imm, 0 < n →
      (∃ a m v, inCode s.cfg a m = false ∧ inStack s.cfg a m = true ∧ 0 < m ∧
        store n rs2 rs1 imm s =
          .next (complete .store (nextPc s) { s with mem := writeBytes s.mem a m v })) ∨
      (∃ e, store n rs2 rs1 imm s = .next (raise e s)) := fun n rs2 rs1 imm hn => by
    rcases store_cases n rs2 rs1 imm s with ⟨hc, hs, h⟩ | ⟨r, h⟩
    · exact .inl ⟨_, _, _, hc, hs, hn, h⟩
    · exact .inr ⟨_, h⟩
  have br : ∀ (taken : Bool) (offset : BitVec 13),
      (i.wellFormed = true → (!offset.getLsbD 0) = true) →
      ∃ k p rd v, branch taken offset s = .next (complete k p (setReg rd v s)) ∧
        (i.wellFormed = true → s.pc.toNat % 2 = 0 → p.toNat % 2 = 0) := fun taken offset hw => by
    cases taken
    · exact ⟨_, _, 0#5, 0#64, rfl, fun _ h => nextPc_even h⟩
    · exact ⟨_, _, 0#5, 0#64, rfl, fun w h =>
        relativeTarget_even (by omega) (hw w) h⟩
  cases i with
  | add rd rs1 rs2 => exact .inl (arith _ _)
  | sub rd rs1 rs2 => exact .inl (arith _ _)
  | mul rd rs1 rs2 => exact .inl (arith _ _)
  | sll rd rs1 rs2 => exact .inl (arith _ _)
  | srl rd rs1 rs2 => exact .inl (arith _ _)
  | and rd rs1 rs2 => exact .inl (arith _ _)
  | sllw rd rs1 rs2 => exact .inl (arith _ _)
  | sraw rd rs1 rs2 => exact .inl (arith _ _)
  | addi rd rs1 imm => exact .inl (arith _ _)
  | srli rd rs1 shamt ignored => exact .inl (arith _ _)
  | lb rd rs1 imm => exact (ld 1 extendByte rd rs1 imm).imp_right .inr
  | lw rd rs1 imm => exact (ld 4 extendWord rd rs1 imm).imp_right .inr
  | ld rd rs1 imm => exact (ld 8 extendDouble rd rs1 imm).imp_right .inr
  | sb rs2 rs1 imm => exact .inr (st 1 rs2 rs1 imm (by omega))
  | sw rs2 rs1 imm => exact .inr (st 4 rs2 rs1 imm (by omega))
  | sd rs2 rs1 imm => exact .inr (st 8 rs2 rs1 imm (by omega))
  | beq rs1 rs2 offset => exact .inl (br _ offset id)
  | bne rs1 rs2 offset => exact .inl (br _ offset id)
  | blt rs1 rs2 offset => exact .inl (br _ offset id)
  | bge rs1 rs2 offset => exact .inl (br _ offset id)
  | jal rd offset =>
    exact .inl ⟨_, _, _, _, rfl, fun w h => relativeTarget_even (by omega) w h⟩
  | jalr rd funct3 rs1 imm => exact .inl ⟨_, _, _, _, rfl, fun _ _ => jalrTarget_even rs1 imm s⟩

/-! ### Stepping -/

/-- Everything a step that answers a next state can have done, in the order of R121. -/
theorem step_cases {s t : State} (h : step s = .next t) :
    s.status = .running ∧
      ((s.pc = s.cfg.stop ∧ t = { s with status := .stopped }) ∨
        (s.pc ≠ s.cfg.stop ∧ limitReached s = true ∧
          t = raise (.stepLimitExceeded s.pc s.cnt.instructions) s) ∨
        (s.pc ≠ s.cfg.stop ∧ limitReached s = false ∧
          ((aligned s.pc = false ∧
              t = raise (.memoryError .fetch s.pc 4 .fetchMisaligned s.pc) s) ∨
            (aligned s.pc = true ∧ lookup s s.pc = none ∧ inCode s.cfg s.pc.toNat 4 = false ∧
              t = raise (.memoryError .fetch s.pc 4 .fetchOutsideCode s.pc) s) ∨
            (aligned s.pc = true ∧ ∃ iw s', fetchWord s.pc s = .word iw s' ∧
              ((∃ cause, decode iw = .illegal cause ∧
                  t = raise (.decodeError cause iw s.pc) s') ∨
                ∃ i, decode iw = .instr i ∧ exec i s' = .next t))))) := by
  unfold step front at h
  cases hst : s.status <;> rw [hst] at h <;> simp only at h
  · refine ⟨rfl, ?_⟩
    unfold runningFront at h
    by_cases hp : s.pc = s.cfg.stop
    · rw [if_pos hp] at h
      cases h
      exact .inl ⟨hp, rfl⟩
    · rw [if_neg hp] at h
      cases hl : limitReached s <;> rw [hl] at h
      · simp only [Bool.false_eq_true, if_false] at h
        refine .inr (.inr ⟨hp, rfl, ?_⟩)
        cases ha : aligned s.pc <;> rw [ha] at h
        · simp only [Bool.false_eq_true, if_false] at h
          cases h
          exact .inl ⟨rfl, rfl⟩
        · simp only [if_true] at h
          unfold fetchStage at h
          cases hf : fetchWord s.pc s with
          | error e =>
            rw [hf] at h
            obtain ⟨h1, h2, rfl⟩ := fetchWord_error hf
            cases h
            exact .inr (.inl ⟨rfl, h1, h2, rfl⟩)
          | word iw s' =>
            rw [hf] at h
            have hk : s'.pc = s.pc := (fetchWord_keeps hf).2.1
            refine .inr (.inr ⟨rfl, iw, s', rfl, ?_⟩)
            simp only [decodeStage] at h
            cases hd : decode iw with
            | instr i =>
              rw [hd] at h
              exact .inr ⟨i, rfl, h⟩
            | illegal cause =>
              rw [hd] at h
              cases h
              exact .inl ⟨cause, rfl, by rw [hk]⟩
      · simp only [if_true] at h
        cases h
        exact .inr (.inl ⟨hp, rfl, rfl⟩)
  · cases h
  · cases h

end Sys2Proof.Machine
end

