-- ==== Sys2Proof/Tests/Slice0.lean ====
section
/-! SUPPORT. Tests on fixed values. The expected results come from spec/95_test_vectors.md (the
section is named at each group) and from the rules it cites, not from the model. -/

namespace Sys2Proof.Tests

open Sys2Proof.Machine Sys2Proof.Safety

/-! ### Helpers -/

/-- A small Running state of the launch configuration with sixteen image words, at `pc`, with the
listed registers written. -/
def start (pc : Word) (regs : List (RegIdx × Word)) : State :=
  regs.foldl (fun s p => setReg p.1 p.2 s)
    { State.reset with pc := pc, cfg := { Config.resetCfg with codeWords := 16 } }

/-- The start state of section 2.7: eight stack bytes at 0x80F8, x2 = 0x80F0. -/
def startStack (regs : List (RegIdx × Word)) : State :=
  { start 0x1000#64 ((2#5, 0x80F0#64) :: regs) with
    mem := placeBytes [] 0x80F8 [0x7F, 0xFF, 0xFF, 0xFF, 0x00, 0x00, 0x00, 0x80] }

/-- One step of the word `iw` placed at the pc of `s`. -/
def one (s : State) (iw : InstrWord) : StepOutcome := step (placeWord s iw)

/-- A view of a next state. -/
def see {α : Type} (o : StepOutcome) (f : State → α) : Option α :=
  match o with
  | .next t => some (f t)
  | .fault _ => none
  | .refused _ => none

/-- The state after a step, or the reset state. -/
def after (o : StepOutcome) : State :=
  match o with
  | .next t => t
  | .fault _ => State.reset
  | .refused _ => State.reset

/-! ### Well-formed terms (30_encoding R99, R100: offsets are even) -/

theorem test_wellFormed_even : (Instr.beq 5 6 (-8)).wellFormed = true := by decide
theorem test_illFormed_beq : (Instr.beq 5 6 1).wellFormed = false := by decide
theorem test_illFormed_bne : (Instr.bne 5 6 (-1)).wellFormed = false := by decide
theorem test_illFormed_blt : (Instr.blt 5 6 4095).wellFormed = false := by decide
theorem test_illFormed_bge : (Instr.bge 5 6 3).wellFormed = false := by decide
theorem test_illFormed_jal : (Instr.jal 1 17).wellFormed = false := by decide

/-! ### Decoding and encoding the words of section 2.3 -/

theorem test_words_r :
    decode 0b0000000_00010_00001_000_00011_0110011#32 = .instr (.add 3 1 2) ∧
    decode 0b0100000_00111_00110_000_00101_0110011#32 = .instr (.sub 5 6 7) ∧
    decode 0b0000001_01011_01010_000_01010_0110011#32 = .instr (.mul 10 10 11) ∧
    decode 0b0000000_00111_00110_001_00101_0110011#32 = .instr (.sll 5 6 7) ∧
    decode 0b0000000_00111_00110_101_00101_0110011#32 = .instr (.srl 5 6 7) ∧
    decode 0b0000000_00111_00110_111_00101_0110011#32 = .instr (.and 5 6 7) := by decide

theorem test_words_r64 :
    decode 0b0000000_00111_00110_001_00101_0111011#32 = .instr (.sllw 5 6 7) ∧
    decode 0b0100000_00111_00110_101_00101_0111011#32 = .instr (.sraw 5 6 7) := by decide

theorem test_words_iArith :
    decode 0b111111111111_00110_000_00101_0010011#32 = .instr (.addi 5 6 (-1)) ∧
    decode 0b0000000_00011_00110_101_00101_0010011#32 = .instr (.srli 5 6 3 0) ∧
    decode 0b0000000_00000_00000_000_00000_0010011#32 = .instr (.addi 0 0 0) := by decide

theorem test_words_iLoad :
    decode 0b111111111111_00110_000_00101_0000011#32 = .instr (.lb 5 6 (-1)) ∧
    decode 0b000000001000_00010_010_00101_0000011#32 = .instr (.lw 5 2 8) ∧
    decode 0b000000010000_00010_011_00101_0000011#32 = .instr (.ld 5 2 16) := by decide

theorem test_words_s :
    decode 0b1111111_00111_00110_000_11111_0100011#32 = .instr (.sb 7 6 (-1)) ∧
    decode 0b0000000_00111_00010_010_01000_0100011#32 = .instr (.sw 7 2 8) ∧
    decode 0b0000000_00001_00010_011_11000_0100011#32 = .instr (.sd 1 2 24) := by decide

theorem test_words_b :
    decode 0b1_111111_00110_00101_000_1100_1_1100011#32 = .instr (.beq 5 6 (-8)) ∧
    decode 0b0_000000_00110_00101_001_0110_0_1100011#32 = .instr (.bne 5 6 12) ∧
    decode 0b0_000000_00110_00101_100_0000_1_1100011#32 = .instr (.blt 5 6 2048) ∧
    decode 0b1_000000_00110_00101_101_0000_0_1100011#32 = .instr (.bge 5 6 (-4096)) := by decide

theorem test_words_jumps :
    decode 0b0_0000001000_0_00000000_00001_1101111#32 = .instr (.jal 1 16) ∧
    decode 0b1_1111111010_1_11111111_00000_1101111#32 = .instr (.jal 0 (-12)) ∧
    decode 0b000000000000_00001_000_00000_1100111#32 = .instr (.jalr 0 0 1 0) ∧
    decode 0b111111111100_00101_000_00001_1100111#32 = .instr (.jalr 1 0 5 (-4)) := by decide

theorem test_encode_words :
    [encode (.mul 10 10 11), encode (.sraw 5 6 7), encode (.addi 5 6 (-1)), encode (.ld 5 2 16),
      encode (.sb 7 6 (-1)), encode (.bge 5 6 (-4096)), encode (.jal 0 (-12)),
      encode (.jalr 1 0 5 (-4))] =
    [0x02B50533, 0x407352BB, 0xFFF30293, 0x01013283, 0xFE730FA3, 0x8062D063, 0xFF5FF06F,
      0xFFC280E7] := by decide

/-- Section 2.2: one bit of each immediate at a time. -/
theorem test_immediates :
    sext (immI 0x80000013) = 0xFFFFFFFFFFFFF800 ∧ sext (immS 0x7E000FA3) = 0x7FF ∧
    sext (immB 0x0062C0E3) = 0x800 ∧ sext (immB 0x7E000FE3) = 0xFFE ∧
    sext (immB 0x8062D063) = 0xFFFFFFFFFFFFF000 ∧ sext (immJ 0x800000EF) = 0xFFFFFFFFFFF00000 ∧
    sext (immJ 0x001000EF) = 0x800 ∧ sext (immJ 0x000FF0EF) = 0xFF000 := by decide

/-- Section 2.11, E2 to E5: the field a DecodeError names. -/
theorem test_illegal_words :
    decode 0x000012B7 = .illegal (.opcode 0b0110111) ∧
    decode 0x407352B3 = .illegal (.funct7 0b0100000) ∧
    decode 0x007322B3 = .illegal (.funct3 0b010) ∧
    decode 0x00000000 = .illegal (.opcode 0) ∧
    decode 0xFFFFFFFF = .illegal (.opcode 0b1111111) := by decide

/-- The bytes of a word, lowest address first (R54, 2.7: `lw` of the image's first word). -/
theorem test_bytes : bytesOfWord 0xFFF30293 = [0x93, 0x02, 0xF3, 0xFF] := by decide
theorem test_decodeTableWord : decodeTableWord 32 0xFF5FF06F = some (.jal 0 (-12)) := by decide

/-! ### BitField (section 2.1) -/

theorem test_extractBits :
    BitField.extractBits 0xFFF30293 15 5 = some 6 ∧
    BitField.extractBits 0xFFFFFFFFFFFFFFFF 32 32 = some 0xFFFFFFFF ∧
    BitField.extractBits 0x8000000000000000 63 1 = some 1 ∧
    BitField.extractBits 0 33 32 = none := by decide

theorem test_signExtend :
    BitField.signExtend 0x800 11 = some 0xFFFFFFFFFFFFF800 ∧
    BitField.signExtend 0xF7FF 11 = some 0x7FF ∧
    BitField.signExtend 0x8000000000000000 63 = some 0x8000000000000000 ∧
    BitField.signExtend 1 0 = some 0xFFFFFFFFFFFFFFFF := by decide

theorem test_testBit :
    BitField.testBit 0x80 7 = some true ∧ BitField.testBit 0x80 6 = some false := by decide

/-! ### Class R (sections 1 and 2.4) -/

theorem test_add : see (one (start 0x1000 [(1, 5), (2, 7)]) 0x002081B3)
    (fun t => (getReg 3 t, t.pc, t.cnt.arithmetic, t.cnt.instructions)) =
    some (0xC, 0x1004, 1, 1) := by decide
theorem test_add_same : see (one (start 0x1000 [(5, 0x4000000000000001)]) 0x005282B3)
    (getReg 5) = some 0x8000000000000002 := by decide
theorem test_add_x0 : see (one (start 0x1000 [(1, 5), (2, 7)]) 0x00208033)
    (fun t => (getReg 0 t, t.pc)) = some (0, 0x1004) := by decide
theorem test_sub : see (one (start 0x1000 [(6, 0), (7, 1)]) 0x407302B3) (getReg 5) =
    some 0xFFFFFFFFFFFFFFFF := by decide
theorem test_mul : see (one (start 0x1000 [(10, 0xFFFFFFFF), (11, 0xFFFFFFFF)]) 0x02B50533)
    (getReg 10) = some 0xFFFFFFFE00000001 := by decide
theorem test_sll : see (one (start 0x1000 [(6, 0xFFFFFFFFFFFFFFFF), (7, 0x41)]) 0x007312B3)
    (getReg 5) = some 0xFFFFFFFFFFFFFFFE := by decide
theorem test_srl : see (one (start 0x1000 [(6, 0xFFFFFFFFFFFFFFFF), (7, 0x7F)]) 0x007352B3)
    (getReg 5) = some 1 := by decide
theorem test_and : see (one (start 0x1000 [(6, 0xFFFFFFFFFFFFFFFF), (7, 0x1234)]) 0x007372B3)
    (getReg 5) = some 0x1234 := by decide

/-! ### Classes R64 and I-arith (sections 2.5, 2.6) -/

theorem test_sllw : see (one (start 0x1000 [(6, 0x80000000), (7, 1)]) 0x007312BB) (getReg 5) =
    some 0x100000000 := by decide
theorem test_sllw_amount : see (one (start 0x1000 [(6, 3), (7, 0x3F)]) 0x007312BB) (getReg 5) =
    some 0x180000000 := by decide
theorem test_sraw : see (one (start 0x1000 [(6, 0x1234567880000000), (7, 4)]) 0x407352BB)
    (getReg 5) = some 0xFFFFFFFFF8000000 := by decide
theorem test_sraw_upper : see (one (start 0x1000 [(6, 0xFFFFFFFF00000010), (7, 4)]) 0x407352BB)
    (getReg 5) = some 1 := by decide
theorem test_addi : see (one (start 0x1000 [(6, 0)]) 0x80030293) (getReg 5) =
    some 0xFFFFFFFFFFFFF800 := by decide
theorem test_addi_wraps : see (one (start 0x1000 [(6, 0xFFFFFFFFFFFFFFFF)]) 0x00130293)
    (getReg 5) = some 0 := by decide
theorem test_srli_33 : see (one (start 0x1000 [(6, 0xFFFFFFFFFFFFFFFF)]) 0x02135293)
    (getReg 5) = some 0x7FFFFFFFFFFFFFFF := by decide
theorem test_srli_srai : see (one (start 0x1000 [(6, 0x8000000000000000)]) 0x40435293)
    (getReg 5) = some 0x0800000000000000 := by decide

/-! ### Loads and stores (section 2.7) -/

theorem test_ld : see (exec (.ld 5 2 8) (startStack [])) (fun t => (getReg 5 t, t.cnt.loads)) =
    some (0x80000000FFFFFF7F, 1) := by decide
theorem test_ld_range : see (exec (.ld 5 2 9) (startStack [])) (·.err) =
    some (some (.memoryError .load 0x80F9 8 .outOfRange 0x1000)) := by decide
theorem test_lw : see (exec (.lw 5 2 12) (startStack [])) (getReg 5) =
    some 0xFFFFFFFF80000000 := by decide
theorem test_lw_misaligned : see (exec (.lw 5 2 9) (startStack [])) (getReg 5) =
    some 0xFFFFFF := by decide
theorem test_lb : see (exec (.lb 5 2 15) (startStack [])) (getReg 5) =
    some 0xFFFFFFFFFFFFFF80 := by decide
theorem test_lb_range : see (exec (.lb 5 2 16) (startStack [])) (fun t => (t.status, t.err)) =
    some (.failed, some (.memoryError .load 0x8100 1 .outOfRange 0x1000)) := by decide
theorem test_lw_code : see (one (start 0x1000 [(6, 0x1000)]) 0x00032283) (getReg 5) =
    some 0x00032283 := by decide
theorem test_ld_top : see (exec (.ld 5 0 (-1)) (startStack [])) (·.err) =
    some (some (.memoryError .load 0xFFFFFFFFFFFFFFFF 8 .outOfRange 0x1000)) := by decide
theorem test_lw_x0 : see (exec (.lw 0 2 16) (startStack [])) (·.status) = some .failed := by decide
theorem test_sb : see (exec (.sb 7 2 8) (startStack [(7, 0x1234)]))
    (fun t => (readByte t.mem 0x80F8, readByte t.mem 0x80F9, t.cnt.stores)) =
    some (0x34, 0xFF, 1) := by decide
theorem test_sw : see (exec (.sw 7 2 12) (startStack [(7, 0x11223344DEADBEEF)]))
    (fun t => [0x80FB, 0x80FC, 0x80FD, 0x80FE, 0x80FF].map (readByte t.mem)) =
    some [0xFF, 0xEF, 0xBE, 0xAD, 0xDE] := by decide
theorem test_sd : see (exec (.sd 7 2 8) (startStack [(7, 0x0102030405060708)]))
    (fun t => [0x80F7, 0x80F8, 0x80FB, 0x80FC, 0x80FF].map (readByte t.mem)) =
    some [0, 8, 5, 4, 1] := by decide
theorem test_sd_range : see (exec (.sd 7 2 16) (startStack [(7, 1)])) (fun t => (t.err, t.mem)) =
    some (some (.memoryError .store 0x8100 8 .outOfRange 0x1000), (startStack []).mem) := by decide

/-! ### Branches and jumps (sections 1, 2.8, 2.9) -/

theorem test_beq : see (one (start 0x1010 [(5, 9), (6, 9)]) 0xFE628CE3)
    (fun t => (t.pc, t.cnt.branchesTaken, t.cnt.branchesNotTaken)) = some (0x1008, 1, 0) := by
  decide
theorem test_beq_not : see (exec (.beq 5 6 16) (start 0x1010 [(5, 0x100000000), (6, 0)]))
    (fun t => (t.pc, t.cnt.branchesTaken, t.cnt.branchesNotTaken)) = some (0x1014, 0, 1) := by
  decide
theorem test_bne : see (exec (.bne 5 6 16) (start 0x1010 [(5, 0x100000000), (6, 0)])) (·.pc) =
    some 0x1020 := by decide
theorem test_blt : see (exec (.blt 5 6 16)
    (start 0x1010 [(5, 0x8000000000000000), (6, 0x7FFFFFFFFFFFFFFF)])) (·.pc) =
    some 0x1020 := by decide
theorem test_blt_not : see (exec (.blt 5 6 16) (start 0x1010 [(5, 0), (6, 0xFFFFFFFFFFFFFFFF)]))
    (·.pc) = some 0x1014 := by decide
theorem test_bge : see (exec (.bge 5 6 16) (start 0x1010 [(5, 0xFFFFFFFFFFFFFFFF), (6, 0)]))
    (·.pc) = some 0x1014 := by decide
theorem test_bge_equal : see (exec (.bge 5 6 16) (start 0x1010 [(5, 5), (6, 5)])) (·.pc) =
    some 0x1020 := by decide
theorem test_jal : see (one (start 0x1000 []) 0x010000EF)
    (fun t => (getReg 1 t, t.pc, t.cnt.jumps)) = some (0x1004, 0x1010, 1) := by decide
theorem test_jal_back : see (one (start 0x1014 []) 0xFF5FF06F) (fun t => (getReg 0 t, t.pc)) =
    some (0, 0x1008) := by decide
theorem test_jalr : see (one (start 0x1020 [(5, 0x2004), (7, 0x55)]) 0x000283E7)
    (fun t => (t.pc, getReg 5 t, getReg 7 t)) = some (0x2004, 0x1024, 0x55) := by decide
theorem test_jalr_odd : see (one (start 0x1000 [(5, 0x2009), (1, 0x77)]) 0xFFC280E7)
    (fun t => (t.pc, getReg 5 t, getReg 1 t)) = some (0x2004, 0x1004, 0x77) := by decide

/-! ### The cache (section 2.10) -/

/-- K4: the index function with eight lines. -/
theorem test_lineIndex :
    [0x1000, 0x1004, 0x101C, 0x1020, 0xFFFFFFFFFFFFFFFC].map (lineIndex Config.resetCfg) =
    [0, 1, 7, 0, 7] := by decide

/-- K1: `jal x0, 0` misses once, then hits. -/
theorem test_miss_then_hit :
    see (step (after (one (start 0x1000 []) 0x0000006F))) events =
    some [.miss 0x1000, .hit 0x1000] := by decide

/-- A cached word is not the word placed later at the same address, once it is dropped. -/
theorem test_placeWord_after_hit :
    see (one (after (one (start 0x1000 []) 0x0000006F)) 0x00100293) (getReg 5) = some 1 := by decide

/-! ### Errors and the ends of a run (section 2.11) -/

/-- E2: the fetch's fill and event stay, nothing is counted. -/
theorem test_decodeError : see (one (start 0x1000 []) 0x000012B7)
    (fun t => (t.status, t.err, t.pc, t.cnt.instructions)) =
    some (.failed, some (.decodeError (.opcode 0b0110111) 0x000012B7 0x1000), 0x1000, 0) := by decide

/-- E7: `write_to_code` inside the segment, `out_of_range` across its end (C8). -/
theorem test_store_to_code :
    see (exec (.sd 1 5 0) (start 0x1000 [(5, 0x1000)])) (·.err) =
      some (some (.memoryError .store 0x1000 8 .writeToCode 0x1000)) ∧
    see (exec (.sd 1 5 0) (start 0x1000 [(5, 0x103C)])) (·.err) =
      some (some (.memoryError .store 0x103C 8 .outOfRange 0x1000)) := by decide

/-- E8, E9, E10: misaligned, past the end, in the stack. -/
theorem test_fetch_errors :
    [0x1006, 0x1040, 0x80F0].map (fun pc => see (step (start pc [])) (·.err)) =
    [some (some (.memoryError .fetch 0x1006 4 .fetchMisaligned 0x1006)),
      some (some (.memoryError .fetch 0x1040 4 .fetchOutsideCode 0x1040)),
      some (some (.memoryError .fetch 0x80F0 4 .fetchOutsideCode 0x80F0))] := by decide

/-- E11: MAX_STEPS = 0 fails before any fetch. -/
theorem test_step_limit :
    see (step { start 0x1000 [] with cfg.maxSteps := some 0 }) (fun t => (t.err, t.trace)) =
    some (some (.stepLimitExceeded 0x1000 0), []) := by decide

/-- E12: `ret` alone, ARGS[0] = 7: the step after it finds STOP, and the result is 7. -/
theorem test_ret_stops :
    see (step (after (one (start 0x1000 [(10, 7)]) 0x00008067)))
      (fun t => (t.status, t.pc, getReg 1 t, (result t).bind (·.value))) =
    some (.stopped, 0, 0x1004, some 7) := by decide

/-- The launch register values of the vectors' configuration. -/
theorem test_launch_registers :
    (getReg 1 State.reset, getReg 2 State.reset, State.reset.pc) = (0, 0x8100, 0x1000) := by decide

/-- The word placed at the pc of the reset state is the first instruction to run. -/
theorem test_withFetchWord :
    see (step (State.reset.withFetchWord 32 0x00100293)) (fun t => (getReg 5 t, t.pc)) =
    some (1, 0x1004) := by decide

/-! ### Witnesses: every statement with hypotheses has states and operands that meet them -/

/-- A coherent cache, from a finite check. -/
theorem coherent_of_check {s : State} (hl : s.lines.length = s.cfg.cacheLines)
    (h : ∀ p ∈ s.lines.zipIdx, LineCoherent s p.2 p.1) : CacheCoherent s :=
  ⟨hl, fun i l hi => h (l, i) (List.mk_mem_zipIdx_iff_getElem?.mpr hi)⟩

/-- A state whose next step fetches the word `iw`, with an empty cache. -/
def fetches (iw : InstrWord) : State := placeWord (start 0x1000 []) iw

/-- A state whose next step fetches `jal x0, 0` and hits. -/
def hits : State := after (one (start 0x1000 []) 0x0000006F)

theorem fetches_coherent : CacheCoherent (fetches 0x00100293) :=
  coherent_of_check (by decide) (by simp only [LineCoherent]; decide)

theorem hits_coherent : CacheCoherent hits :=
  coherent_of_check (by decide) (by simp only [LineCoherent]; decide)

theorem fetches_ready : ReadyToFetch (fetches 0x00100293) :=
  ⟨by decide, by decide, (by intro n h; cases h), by decide, by decide⟩

theorem hits_ready : ReadyToFetch hits :=
  ⟨by decide, by decide, (by intro n h; cases h), by decide, by decide⟩

theorem witness_DecodeOfEncode :
    [Instr.beq 5 6 (-4096), .bge 31 0 4094, .jal 0 (-1048576), .jalr 31 7 31 (-2048),
      .srli 31 31 31 127].all Instr.wellFormed = true := by decide

theorem witness_EncodeOfDecode : decode 0x8062D063 = .instr (.bge 5 6 (-4096)) := by decide

theorem witness_IllegalWords :
    offendingField 0x000012B7 = some (.opcode 0b0110111) ∧
    offendingField 0x407352B3 = some (.funct7 0b0100000) ∧
    offendingField 0x007322B3 = some (.funct3 0b010) ∧
    offendingField 0x407302B3 = none ∧ offendingField 0xFFF35293 = none := by decide

theorem witness_ExtractBits : 1 ≤ 32 ∧ 32 ≤ 32 ∧ 32 + 32 ≤ 64 ∧ 1 ≤ 1 ∧ 63 + 1 ≤ 64 := by decide

theorem witness_SignExtend :
    63 ≤ 63 ∧ (0x8000000000000000#64).getLsbD 63 = true ∧ (0b1000#64).getLsbD 3 = true := by decide

/-- Frames: a register other than the destination, and two states that differ in `x9` only. -/
theorem witness_TouchOnly :
    (∃ t, exec (.jalr 7 0 5 0) (start 0x1000 [(5, 0x2004)]) = .next t ∧
      destination (.jalr 7 0 5 0) ≠ some 7#5) ∧
    ∃ ρ t t', (∀ r, r ∈ sources (.add 3 1 2) →
        getReg r { start 0x1000 [(1, 5)] with regs := ρ } = getReg r (start 0x1000 [(1, 5)])) ∧
      exec (.add 3 1 2) (start 0x1000 [(1, 5)]) = .next t ∧
      exec (.add 3 1 2) { start 0x1000 [(1, 5)] with regs := ρ } = .next t' ∧
      t.status ≠ .failed ∧ destination (.add 3 1 2) = some 3#5 :=
  ⟨⟨_, rfl, by decide⟩, (start 0x1000 [(1, 5), (9, 1)]).regs, _, _,
    by decide, rfl, rfl, by decide, rfl⟩

/-- Loads: the last access that fits, in each segment, and the first that does not, for each
width. -/
theorem witness_Loadable :
    (Loadable (startStack []) (effectiveAddress 2 15 (startStack [])) 1 ∧
      ¬ Loadable (startStack []) (effectiveAddress 2 16 (startStack [])) 1) ∧
    (Loadable (startStack []) (effectiveAddress 2 12 (startStack [])) 4 ∧
      ¬ Loadable (startStack []) (effectiveAddress 2 13 (startStack [])) 4) ∧
    (Loadable (startStack []) (effectiveAddress 2 8 (startStack [])) 8 ∧
      ¬ Loadable (startStack []) (effectiveAddress 2 9 (startStack [])) 8) ∧
    (Loadable (start 0x1000 [(6, 0x1038)]) (effectiveAddress 6 0 (start 0x1000 [(6, 0x1038)])) 8 ∧
      ¬ Loadable (start 0x1000 [(6, 0x1039)])
        (effectiveAddress 6 0 (start 0x1000 [(6, 0x1039)])) 8) := by
  simp only [Loadable]; decide

/-- Stores of each width: into the last stack bytes, into the last code bytes, across the ends. -/
theorem witness_Storable :
    Memory.wf (startStack []).mem ∧
    (Storable (startStack []) (effectiveAddress 2 15 (startStack [])) 1 ∧
      Storable (startStack []) (effectiveAddress 2 12 (startStack [])) 4 ∧
      Storable (startStack []) (effectiveAddress 2 8 (startStack [])) 8) ∧
    (inCode (start 0 [(6, 0x103F)]).cfg
        (effectiveAddress 6 0 (start 0 [(6, 0x103F)])).toNat 1 = true ∧
      inCode (start 0 [(6, 0x103C)]).cfg
        (effectiveAddress 6 0 (start 0 [(6, 0x103C)])).toNat 4 = true ∧
      inCode (start 0 [(6, 0x1038)]).cfg
        (effectiveAddress 6 0 (start 0 [(6, 0x1038)])).toNat 8 = true) ∧
    (¬ Loadable (startStack []) (effectiveAddress 2 16 (startStack [])) 1 ∧
      ¬ Loadable (startStack []) (effectiveAddress 2 13 (startStack [])) 4 ∧
      ¬ Loadable (startStack []) (effectiveAddress 2 9 (startStack [])) 8) := by
  simp only [Loadable, Storable]; decide

theorem witness_StepRuns_miss :
    CacheCoherent (fetches 0x00100293) ∧ ReadyToFetch (fetches 0x00100293) ∧
    decode (codeWord (fetches 0x00100293).mem (fetches 0x00100293).pc.toNat) =
      .instr (.addi 5 0 1) :=
  ⟨fetches_coherent, fetches_ready, by decide⟩

theorem witness_StepRuns_hit :
    CacheCoherent hits ∧ ReadyToFetch hits ∧ lookup hits hits.pc ≠ none ∧
    decode (codeWord hits.mem hits.pc.toNat) = .instr (.jal 0 0) :=
  ⟨hits_coherent, hits_ready, by decide, by decide⟩

theorem witness_StopEnds :
    ((start 0 []).status = .running ∧ (start 0 []).pc = (start 0 []).cfg.stop) ∧
    ∃ t, step (fetches 0x00008067) = .next t ∧
      (fetches 0x00008067).pc ≠ (fetches 0x00008067).cfg.stop ∧
      t.pc = (fetches 0x00008067).cfg.stop :=
  ⟨by decide, _, rfl, by decide, by decide⟩

/-- The limit at its boundary: as many instructions completed as `MAX_STEPS`. -/
theorem witness_StepLimit :
    let s := { hits with cfg.maxSteps := some 1 }
    s.status = .running ∧ s.pc ≠ s.cfg.stop ∧ s.cfg.maxSteps = some 1 ∧
      1 ≤ s.cnt.instructions := by decide

/-- Misaligned, inside the code segment; and one instruction below the limit. -/
theorem witness_MisalignedPc :
    let s := { start 0x1002 [] with cfg.maxSteps := some 1 }
    s.status = .running ∧ s.pc ≠ s.cfg.stop ∧
      (∀ n, s.cfg.maxSteps = some n → s.cnt.instructions < n) ∧ s.pc.toNat % 4 ≠ 0 :=
  ⟨by decide, by decide, (by intro n h; cases h; decide), by decide⟩

/-- The first word past the code segment. -/
theorem witness_FetchOutside :
    CacheCoherent (start 0x1040 []) ∧ (start 0x1040 []).status = .running ∧
      (start 0x1040 []).pc ≠ (start 0x1040 []).cfg.stop ∧
      (∀ n, (start 0x1040 []).cfg.maxSteps = some n →
        (start 0x1040 []).cnt.instructions < n) ∧
      (start 0x1040 []).pc.toNat % 4 = 0 ∧
      inCode (start 0x1040 []).cfg (start 0x1040 []).pc.toNat 4 = false :=
  ⟨coherent_of_check (by decide) (by simp only [LineCoherent]; decide), by decide, by decide,
    (by intro n h; cases h), by decide, by decide⟩

theorem witness_IllegalWord :
    CacheCoherent (fetches 0x000012B7) ∧ ReadyToFetch (fetches 0x000012B7) ∧
    offendingField (codeWord (fetches 0x000012B7).mem (fetches 0x000012B7).pc.toNat) =
      some (.opcode 0b0110111) :=
  ⟨coherent_of_check (by decide) (by simp only [LineCoherent]; decide),
    ⟨by decide, by decide, (by intro n h; cases h), by decide, by decide⟩, by decide⟩

theorem witness_RunningAlwaysSteps : State.reset.status = .running := by decide

/-- Also the witness of FailingStepDeliversItsError, whose hypotheses are the same. -/
theorem witness_ErrorsArePrecise :
    ∃ t, step (fetches 0x000012B7) = .next t ∧ t.status = .failed := ⟨_, rfl, by decide⟩

theorem witness_EachCountsOnce :
    (∃ t, step hits = .next t ∧ t.status = .running) ∧
    (∃ t, step (start 0 []) = .next t ∧ t.status ≠ .running) :=
  ⟨⟨_, rfl, by decide⟩, ⟨_, rfl, by decide⟩⟩

/-- The last byte of the code segment, over a step that stores to the stack. -/
theorem witness_CodeSegment :
    cfgValid (fetches 0xFE713C23).cfg = true ∧ Memory.wf (fetches 0xFE713C23).mem ∧
    (∃ t, step (fetches 0xFE713C23) = .next t ∧ t.cnt.stores = 1) ∧
    InCodeSegment (fetches 0xFE713C23).cfg 0x103F :=
  ⟨by decide, by decide, ⟨_, rfl, by decide⟩, by unfold InCodeSegment; decide⟩

theorem witness_NarrowReads :
    cfgValid (startStack []).cfg = true ∧ Memory.wf (startStack []).mem ∧
    ∃ t, memWrite (startStack []) 0x80F8 8 0x0102030405060708 = .ok t :=
  ⟨by decide, by decide, _, rfl⟩

theorem witness_LoadReturns :
    Memory.wf (startStack []).mem ∧
    Storable (startStack []) (effectiveAddress 2 8 (startStack [])) 8 ∧ (5#5 : RegIdx) ≠ 0#5 := by
  simp only [Storable]; decide

/-- The last byte and the last word of the stack segment. -/
theorem witness_NarrowLoadReturns :
    Memory.wf (startStack []).mem ∧
    Storable (startStack []) (effectiveAddress 2 15 (startStack [])) 1 ∧
    Storable (startStack []) (effectiveAddress 2 12 (startStack [])) 4 := by
  simp only [Storable]; decide

/-- Eight lines: 0x1000 and 0x1020 collide, 0x1000 and 0x101C do not. -/
theorem witness_Collide :
    Config.resetCfg.cacheLines = 2 ^ 3 ∧ (0x1000#64).toNat % 4 = 0 ∧ (0x1020#64).toNat % 4 = 0 ∧
    lineIndex Config.resetCfg 0x1000 = lineIndex Config.resetCfg 0x1020 ∧
    lineIndex Config.resetCfg 0x1000 ≠ lineIndex Config.resetCfg 0x101C := by decide

theorem witness_SecondFetch :
    (fetches 0x00100293).lines.length = (fetches 0x00100293).cfg.cacheLines ∧
    1 ≤ (fetches 0x00100293).cfg.cacheLines ∧
    (∃ t, fetchWord 0x1000 (fetches 0x00100293) = .word 0x00100293 t) ∧
    lineIndex (fetches 0x00100293).cfg 0xFFFFFFFFFFFFFFFC < (fetches 0x00100293).lines.length :=
  ⟨by decide, by decide, ⟨_, rfl⟩, by decide⟩

theorem witness_Colliding : Collide (fetches 0x00100293).cfg 0x1000 0x1020 := by
  unfold Collide; decide

/-- A machine with one cache line, else the reset state. -/
def resetOneLine : State :=
  { State.reset with cfg := { Config.resetCfg with cacheLines := 1 }, lines := [CacheLine.reset] }

theorem reset_invariant_of (s : State) (hc : cfgValid s.cfg = true) (hm : s.mem = [])
    (hl : CacheCoherent s) (hn : s.cnt = Counters.zero) (he : s.err = none)
    (hs : s.status = .running) (hp : s.pc.toNat % 2 = 0) (ht : s.trace = []) : Invariant s where
  cfg_valid := hc
  memory := by rw [MemoryInSegments, hm]; exact ⟨⟨List.Pairwise.nil, by simp⟩, by simp⟩
  cache := hl
  counters := by rw [CountersBalance, hn]; rfl
  err_iff := by rw [ErrorIffFailed, hs, he]; simp
  limit := by intro n _; rw [hn]; exact Nat.zero_le n
  pc_even := hp
  trace := by rw [TraceCounts, hn, ht]; simp [Counters.zero]

theorem witness_CacheIsTransparent :
    Invariant State.reset ∧ Invariant resetOneLine ∧ SameArchitecture State.reset resetOneLine :=
  ⟨reset_invariant_of _ (by decide) rfl
      (coherent_of_check (by decide) (by simp only [LineCoherent]; decide)) rfl rfl rfl
      (by decide) rfl,
    reset_invariant_of _ (by decide) rfl
      (coherent_of_check (by decide) (by simp only [LineCoherent]; decide)) rfl rfl rfl
      (by decide) rfl,
    ⟨fun _ => rfl, rfl, rfl, rfl, rfl, fun _ => rfl, rfl⟩⟩

/-- An allowed launch, one refused (an image one word short), and the two kinds of state. -/
theorem witness_LaunchChecks :
    cfgValid resetArgs.cfg = true ∧ resetArgs.image.length = resetArgs.cfg.codeWords ∧
    launch { resetArgs with image := [] } = .refused .badConfiguration ∧
    State.reset.status = .running ∧
    ({ State.reset with status := .stopped } : State).status ≠ .running :=
  ⟨by decide, by decide, rfl, by decide, by decide⟩

/-- Each constraint of R7 refuses by itself: a misaligned base, an empty image, an image that meets
the stack, a cache of three lines, STOP misaligned, STOP in the image; STOP at the first word after
it is allowed. -/
theorem test_launch_refusals :
    ([{ Config.resetCfg with codeBase := 0x1002 }, { Config.resetCfg with codeWords := 0 },
      { Config.resetCfg with stackSize := 0 }, { Config.resetCfg with stackBase := 0x1003 },
      { Config.resetCfg with cacheLines := 3 }, { Config.resetCfg with cacheLines := 0 },
      { Config.resetCfg with stop := 2 }, { Config.resetCfg with stop := 0x1000 }].map cfgValid =
      List.replicate 8 false) ∧
    cfgValid { Config.resetCfg with stop := 0x1004 } = true := by decide

/-- A launch whose image word, unspecified register and stack byte are not the reset's. -/
theorem witness_LaunchSets :
    ∃ s, launch { resetArgs with image := [0x00008067], initStack := [7] } = .next s ∧
      (3 ≤ (9#5 : RegIdx).toNat ∧ (9#5 : RegIdx).toNat ≤ 9) ∧ 14 ≤ (14#5 : RegIdx).toNat ∧
      readByte s.mem 0x8000 = 7 ∧ readByte s.mem 0x80FF = 0 :=
  ⟨_, rfl, by decide, by decide, by decide, by decide⟩

/-- Two steps after a launch, an address the run has not fetched. -/
theorem witness_LaunchEmpties :
    ∃ s t, launch { resetArgs with image := [0x0000006F] } = .next s ∧
      Host.Core.run core 2 s = .next t ∧ FetchEvent.hit 0x1020 ∉ t.trace ∧
      FetchEvent.miss 0x1020 ∉ t.trace :=
  ⟨_, _, rfl, rfl, by decide, by decide⟩

theorem witness_InvariantKept : Invariant State.reset ∧ ∃ t, step State.reset = .next t :=
  ⟨witness_CacheIsTransparent.1, _, rfl⟩

theorem witness_StepLimitBounds :
    ({ State.reset with cfg.maxSteps := some 3 } : State).status = .running ∧
    ({ State.reset with cfg.maxSteps := some 3 } : State).cfg.maxSteps = some 3 := by decide

theorem witness_ReturnToStop :
    CacheCoherent (fetches 0x00008067) ∧ ReadyToFetch (fetches 0x00008067) ∧
    (fetches 0x00008067).cfg.stop.toNat % 4 = 0 ∧
    decode (codeWord (fetches 0x00008067).mem (fetches 0x00008067).pc.toNat) =
      .instr (.jalr 0 0 1 0) ∧
    getReg 1#5 (fetches 0x00008067) = (fetches 0x00008067).cfg.stop :=
  ⟨coherent_of_check (by decide) (by simp only [LineCoherent]; decide),
    ⟨by decide, by decide, (by intro n h; cases h), by decide, by decide⟩,
    by decide, by decide, by decide⟩

/-- A reset machine, Running, Stopped or Failed, meets the invariant. -/
theorem witness_ResultFollows :
    Invariant State.reset ∧ Invariant { State.reset with status := .stopped } ∧
    Invariant (raise (.stepLimitExceeded 0x1000 0) State.reset) := by
  obtain ⟨cfg, mem, cache, cnt, _, limit, even, _⟩ := witness_CacheIsTransparent.1
  exact ⟨witness_CacheIsTransparent.1,
    ⟨cfg, mem, cache, cnt, by unfold ErrorIffFailed; decide, limit, even,
      by unfold TraceCounts; decide⟩,
    ⟨cfg, mem, cache, cnt, by unfold ErrorIffFailed; decide, limit, even,
      by unfold TraceCounts; decide⟩⟩

/-- A run that fails on its second step delivers one completed instruction and no value. -/
theorem test_failed_result :
    see (step (after (one (start 0x103C []) 0x00000013))) (fun t => (result t).map
      fun r => (r.value, r.counters.instructions, r.err)) =
    some (some (none, 1, some (.memoryError .fetch 0x1040 4 .fetchOutsideCode 0x1040))) := by decide

/-- `srli x5, x6, 1` with two contents of iw[31:25], and `jalr` with two of funct3. -/
theorem witness_IgnoredBits :
    (fieldOpcode 0x02135293 = 0b0010011#7 ∧ fieldFunct3 0x02135293 = 0b101#3 ∧
      (0x02135293#32).extractLsb' 0 25 = (0x40135293#32).extractLsb' 0 25) ∧
    (fieldOpcode 0x000282E7 = 0b1100111#7 ∧ fieldOpcode 0x0002A2E7 = 0b1100111#7 ∧
      (0x000282E7#32).extractLsb' 15 17 = (0x0002A2E7#32).extractLsb' 15 17) := by decide

end Sys2Proof.Tests
end

section
/-! The BitField functions of spec/00_scope.md, bit by bit: what `extractBits` (R10) and
`signExtend` (R11) answer on their stated domains, and which bits the answer has. -/

namespace Sys2Proof.Machine.BitField

/-! ### extractBits -/

theorem extractBits_of_domain (v : BitVec 64) {start count : Nat} (pos : 1 ≤ count)
    (small : count ≤ 32) (fits : start + count ≤ 64) :
    extractBits v start count = some ((v.toNat >>> start) % 2 ^ count) :=
  if_pos ⟨pos, small, fits⟩

theorem testBit_extracted (v : BitVec 64) (start : Nat) {count j : Nat} (hj : j < count) :
    ((v.toNat >>> start) % 2 ^ count).testBit j = v.getLsbD (start + j) := by
  rw [Nat.testBit_mod_two_pow, Nat.testBit_shiftRight, BitVec.testBit_toNat]
  simp [hj]

/-! ### signExtend -/

theorem signExtend_of_le (word : BitVec 64) {k : Nat} (hk : k ≤ 63) :
    signExtend word k = some ((word <<< (63 - k)).sshiftRight (63 - k)) :=
  if_pos hk

/-- The left shift puts bit `k` at position 63. -/
theorem msb_shiftLeft_to_top (word : BitVec 64) {k : Nat} (hk : k ≤ 63) :
    (word <<< (63 - k)).msb = word.getLsbD k := by
  rw [BitVec.msb_eq_getLsbD_last, BitVec.getLsbD_shiftLeft, Nat.sub_sub_self hk]
  simp

/-- Below the sign index the two shifts cancel; above it the arithmetic shift brings in copies of
the bit the left shift put on top. -/
theorem getLsbD_signExtended (word : BitVec 64) {k j : Nat} (hk : k ≤ 63) (hj : j < 64) :
    ((word <<< (63 - k)).sshiftRight (63 - k)).getLsbD j =
      if j ≤ k then word.getLsbD j else word.getLsbD k := by
  rw [BitVec.getLsbD_sshiftRight, msb_shiftLeft_to_top word hk, BitVec.getLsbD_shiftLeft,
    Nat.add_sub_cancel_left]
  by_cases below : j ≤ k
  · have inside : 63 - k + j < 64 := by omega
    simp [below, inside, hj]
  · have outside : ¬63 - k + j < 64 := by omega
    simp [below, outside, hj]

theorem signExtended_neg (word : BitVec 64) {k : Nat} (hk : k ≤ 63)
    (sign : word.getLsbD k = true) :
    ((word <<< (63 - k)).sshiftRight (63 - k)).toInt < 0 := by
  have top : ((word <<< (63 - k)).sshiftRight (63 - k)).msb = true := by
    rw [BitVec.msb_sshiftRight, msb_shiftLeft_to_top word hk, sign]
  exact BitVec.toInt_neg_of_msb_true top

end Sys2Proof.Machine.BitField

namespace Sys2Proof.Proofs.Scope

open Sys2Proof.Machine.BitField

/-- Settles O6: reducing the shifted word modulo `2 ^ count` keeps its low `count` bits, and bit `j`
of the shifted word is bit `start + j` of the word. -/
theorem extractBitsReadsTheField : Obligations.ExtractBitsReadsTheField := by
  intro v start count pos small fits
  exact ⟨_, extractBits_of_domain v pos small fits, Nat.mod_lt _ (Nat.two_pow_pos count),
    fun _ hj => testBit_extracted v start hj⟩

/-- Settles O7: the sign bit goes to position 63 and comes back by an arithmetic shift, so it fills
every place above its own. -/
theorem signExtendReplicatesTheSign : Obligations.SignExtendReplicatesTheSign := by
  refine ⟨fun word k hk => ?_, by decide, by decide⟩
  exact ⟨_, signExtend_of_le word hk, fun _ hj => getLsbD_signExtended word hk hj,
    signExtended_neg word hk⟩

end Sys2Proof.Proofs.Scope
end

section
/-! What the step checks let through and what a decoded instruction is: the conditions of
spec/40_fetch_and_step.md R121 as facts, and the evenness of every decoded offset (R99, R100). -/

namespace Sys2Proof

/-! ### Decoded instructions are well formed -/

/-- The decoder answers well-formed instructions only: the assembled B and J offsets are even, and no
other class has a condition. -/
theorem decode_wellFormed {iw : InstrWord} {i : Instr} (h : decode iw = .instr i) :
    i.wellFormed = true := by
  unfold decode at h
  split at h
  · dsimp only [decodeR] at h
    split_ifs at h <;> cases h <;> rfl
  · dsimp only [decodeR64] at h
    split_ifs at h <;> cases h <;> rfl
  · dsimp only [decodeIArith] at h
    split_ifs at h <;> cases h <;> rfl
  · dsimp only [decodeILoad] at h
    split_ifs at h <;> cases h <;> rfl
  · dsimp only [decodeS] at h
    split_ifs at h <;> cases h <;> rfl
  · dsimp only [decodeB] at h
    split_ifs at h <;> cases h <;> exact immB_even iw
  · cases h
    exact immJ_even iw
  · cases h
    rfl
  · cases h

end Sys2Proof

namespace Sys2Proof.Machine

/-! ### The checks of a step -/

/-- The step limit is not reached exactly when fewer instructions than `MAX_STEPS` have completed
(R124). -/
theorem limitReached_eq_false_iff (s : State) :
    limitReached s = false ↔ ∀ n, s.cfg.maxSteps = some n → s.cnt.instructions < n := by
  unfold limitReached
  cases s.cfg.maxSteps <;> simp

theorem aligned_iff (a : Word) : aligned a = true ↔ a.toNat % 4 = 0 := by
  simp [aligned]

theorem step_of_front_over {s : State} {o : StepOutcome} (h : front s = .over o) :
    step s = o := by
  rw [step, h]

theorem front_of_running {s : State} (h : s.status = .running) : front s = runningFront s := by
  rw [front, h]

/-- From a terminal status no step is taken (R31). -/
theorem front_of_not_running {s : State} (h : s.status ≠ .running) :
    front s = .over (.fault (.runEnded s.status)) := by
  unfold front
  cases hs : s.status with
  | running => exact absurd hs h
  | stopped => rfl
  | failed => rfl

/-- The alignment check stands after STOP and the limit, and before the fetch (R26, R121). -/
theorem runningFront_of_misaligned {s : State} (not_stop : s.pc ≠ s.cfg.stop)
    (below_limit : limitReached s = false) (misaligned : aligned s.pc = false) :
    runningFront s =
      .over (.next (raise (.memoryError .fetch s.pc 4 .fetchMisaligned s.pc) s)) := by
  rw [runningFront, if_neg not_stop, if_neg (by simp [below_limit]), if_neg (by simp [misaligned])]

end Sys2Proof.Machine
end

section
/-! The five handlers every instruction is one of, said once for all 22: which register it writes,
and that the value, the target or the condition it computes depends on its sources and the pc
alone (spec/10_state.md R23). -/

namespace Sys2Proof.Machine

open Sys2Proof.Safety

/-- `f` reads no register outside the sources of `i`, and besides registers the pc only. -/
def SourceDetermined {α : Type} (i : Instr) (f : State → α) : Prop :=
  ∀ s t, (∀ r ∈ sources i, getReg r t = getReg r s) → t.pc = s.pc → f t = f s

theorem sourceDetermined_getReg {i : Instr} {r : RegIdx} (hr : r ∈ sources i) :
    SourceDetermined i (getReg r) :=
  fun _ _ h _ => h r hr

theorem SourceDetermined.map {α β : Type} {i : Instr} {f : State → α} (hf : SourceDetermined i f)
    (g : α → β) : SourceDetermined i (fun s => g (f s)) :=
  fun s t h hpc => congrArg g (hf s t h hpc)

theorem SourceDetermined.map₂ {α β γ : Type} {i : Instr} {f : State → α} {f' : State → β}
    (hf : SourceDetermined i f) (hf' : SourceDetermined i f') (g : α → β → γ) :
    SourceDetermined i (fun s => g (f s) (f' s)) :=
  fun s t h hpc => congrArg₂ g (hf s t h hpc) (hf' s t h hpc)

theorem sourceDetermined_pc (i : Instr) : SourceDetermined i State.pc :=
  fun _ _ _ hpc => hpc

/-- The one handler `i` ends in, with the operands it is given. -/
inductive HandledBy (i : Instr) : Prop where
  | arithmetic (rd : RegIdx) (value : State → Word) (dest : destination i = some rd)
      (det : SourceDetermined i value) (eq : ∀ s, exec i s = writeResult rd (value s) s)
  | load (n : Nat) (extend : Nat → Word) (rd rs1 : RegIdx) (imm : BitVec 12)
      (dest : destination i = some rd) (base : rs1 ∈ sources i)
      (eq : ∀ s, exec i s = load n extend rd rs1 imm s)
  | store (n : Nat) (rs2 rs1 : RegIdx) (imm : BitVec 12) (dest : destination i = none)
      (base : rs1 ∈ sources i) (value : rs2 ∈ sources i)
      (eq : ∀ s, exec i s = store n rs2 rs1 imm s)
  | branch (taken : State → Bool) (offset : BitVec 13) (dest : destination i = none)
      (det : SourceDetermined i taken) (eq : ∀ s, exec i s = branch (taken s) offset s)
  | jump (link : RegIdx) (target : State → Word) (dest : destination i = some link)
      (det : SourceDetermined i target) (eq : ∀ s, exec i s = jump link (target s) s)

/-- An arithmetic instruction with two register operands. -/
theorem HandledBy.binary {i : Instr} {rd rs1 rs2 : RegIdx} (op : Word → Word → Word)
    (dest : destination i = some rd) (srcs : sources i = [rs1, rs2])
    (eq : ∀ s, exec i s = writeResult rd (op (getReg rs1 s) (getReg rs2 s)) s) : HandledBy i :=
  .arithmetic rd _ dest ((sourceDetermined_getReg (by simp [srcs])).map₂
    (sourceDetermined_getReg (by simp [srcs])) op) eq

/-- An arithmetic instruction with one register operand. -/
theorem HandledBy.unary {i : Instr} {rd rs1 : RegIdx} (op : Word → Word)
    (dest : destination i = some rd) (srcs : sources i = [rs1])
    (eq : ∀ s, exec i s = writeResult rd (op (getReg rs1 s)) s) : HandledBy i :=
  .arithmetic rd _ dest ((sourceDetermined_getReg (by simp [srcs])).map op) eq

/-- A branch on a condition of two registers. -/
theorem HandledBy.compare {i : Instr} {rs1 rs2 : RegIdx} {offset : BitVec 13}
    (cond : Word → Word → Bool) (dest : destination i = none) (srcs : sources i = [rs1, rs2])
    (eq : ∀ s, exec i s = Machine.branch (cond (getReg rs1 s) (getReg rs2 s)) offset s) :
    HandledBy i :=
  .branch _ offset dest ((sourceDetermined_getReg (by simp [srcs])).map₂
    (sourceDetermined_getReg (by simp [srcs])) cond) eq

/-- Every instruction ends in one of the five handlers. -/
theorem exec_handledBy (i : Instr) : HandledBy i := by
  cases i with
  | add rd rs1 rs2 => exact .binary (· + ·) rfl rfl fun _ => rfl
  | sub rd rs1 rs2 => exact .binary (· - ·) rfl rfl fun _ => rfl
  | mul rd rs1 rs2 => exact .binary (· * ·) rfl rfl fun _ => rfl
  | sll rd rs1 rs2 => exact .binary (fun a b => a <<< shiftAmount6 b) rfl rfl fun _ => rfl
  | srl rd rs1 rs2 => exact .binary (fun a b => a >>> shiftAmount6 b) rfl rfl fun _ => rfl
  | and rd rs1 rs2 => exact .binary (· &&& ·) rfl rfl fun _ => rfl
  | sllw rd rs1 rs2 => exact .binary (fun a b => a <<< shiftAmount5 b) rfl rfl fun _ => rfl
  | sraw rd rs1 rs2 =>
    exact .binary (fun a b => (sextWord a).sshiftRight (shiftAmount5 b)) rfl rfl fun _ => rfl
  | addi rd rs1 imm => exact .unary (· + sext imm) rfl rfl fun _ => rfl
  | srli rd rs1 shamt ignored => exact .unary (· >>> shamt.toNat) rfl rfl fun _ => rfl
  | lb rd rs1 imm => exact .load 1 extendByte rd rs1 imm rfl (by simp [sources]) fun _ => rfl
  | lw rd rs1 imm => exact .load 4 extendWord rd rs1 imm rfl (by simp [sources]) fun _ => rfl
  | ld rd rs1 imm => exact .load 8 extendDouble rd rs1 imm rfl (by simp [sources]) fun _ => rfl
  | sb rs2 rs1 imm =>
    exact .store 1 rs2 rs1 imm rfl (by simp [sources]) (by simp [sources]) fun _ => rfl
  | sw rs2 rs1 imm =>
    exact .store 4 rs2 rs1 imm rfl (by simp [sources]) (by simp [sources]) fun _ => rfl
  | sd rs2 rs1 imm =>
    exact .store 8 rs2 rs1 imm rfl (by simp [sources]) (by simp [sources]) fun _ => rfl
  | beq rs1 rs2 offset => exact .compare condEq rfl rfl fun _ => rfl
  | bne rs1 rs2 offset => exact .compare condNe rfl rfl fun _ => rfl
  | blt rs1 rs2 offset => exact .compare condLt rfl rfl fun _ => rfl
  | bge rs1 rs2 offset => exact .compare condGe rfl rfl fun _ => rfl
  | jal rd offset =>
    exact .jump rd (relativeTarget offset) rfl
      ((sourceDetermined_pc _).map (· + sext offset)) fun _ => rfl
  | jalr rd funct3 rs1 imm =>
    exact .jump rs1 (jalrTarget rs1 imm) rfl ((sourceDetermined_getReg (by simp [sources])).map
      fun a => (a + sext imm) &&& 0xFFFFFFFFFFFFFFFE#64) fun _ => rfl

/-! ### The register frame -/

theorem getReg_setReg_of_ne {r d : RegIdx} (h : r ≠ d) (v : Word) (s : State) :
    getReg r (setReg d v s) = getReg r s := by
  rw [getReg_setReg, if_neg fun c => h c.1]

theorem ne_of_destination {i : Instr} {r rd : RegIdx} (dest : destination i = some rd)
    (hr : destination i ≠ some r) : r ≠ rd := by
  rintro rfl
  exact hr dest

/-- No handler writes a register but the destination. -/
theorem exec_getReg_of_ne_destination {i : Instr} {s t : State} (h : exec i s = .next t)
    {r : RegIdx} (hr : destination i ≠ some r) : getReg r t = getReg r s := by
  cases exec_handledBy i with
  | arithmetic rd value dest _ eq =>
    cases (eq s).symm.trans h
    exact getReg_setReg_of_ne (ne_of_destination dest hr) _ _
  | load n extend rd rs1 imm dest _ eq =>
    rw [eq, Machine.load] at h
    split at h <;> cases h
    · exact getReg_setReg_of_ne (ne_of_destination dest hr) _ _
    · rfl
  | store n rs2 rs1 imm _ _ _ eq =>
    rw [eq] at h
    obtain ⟨-, -, ok⟩ | ⟨reason, err⟩ := store_cases n rs2 rs1 imm s
    · cases ok.symm.trans h
      rfl
    · cases err.symm.trans h
      rfl
  | branch taken offset _ _ eq =>
    rw [eq, Machine.branch] at h
    split at h <;> cases h <;> rfl
  | jump link target dest _ eq =>
    cases (eq s).symm.trans h
    exact getReg_setReg_of_ne (ne_of_destination dest hr) _ _

/-! ### Noninterference -/

/-- Two outcomes' states agree on everything an instruction with destination `d` computes; on a
failed run no destination value was computed. -/
structure AgreeOn (d : Option RegIdx) (t t' : State) : Prop where
  pc : t'.pc = t.pc
  cnt : t'.cnt = t.cnt
  mem : t'.mem = t.mem
  status : t'.status = t.status
  err : t'.err = t.err
  dest : t.status ≠ .failed → ∀ r, d = some r → getReg r t' = getReg r t

/-- The value written into the destination is what is read there, whatever the other registers
hold. -/
theorem getReg_setReg_same (r : RegIdx) (v : Word) (s t : State) :
    getReg r (setReg r v s) = getReg r (setReg r v t) := by
  by_cases hr : r = 0#5
  · subst hr
    rfl
  · rw [getReg_setReg, getReg_setReg, if_pos ⟨rfl, hr⟩, if_pos ⟨rfl, hr⟩]

theorem agreeOn_complete (k : CountClass) (p : Word) (rd : RegIdx) (v : Word) (s : State)
    (ρ : Vector Word 32) :
    AgreeOn (some rd) (complete k p (setReg rd v s))
      (complete k p (setReg rd v { s with regs := ρ })) where
  pc := rfl
  cnt := by simp
  mem := by simp
  status := by simp
  err := by simp
  dest _ r hr := by
    cases hr
    exact getReg_setReg_same rd v _ _

theorem agreeOn_raise (d : Option RegIdx) (e : RunError) (s : State) (ρ : Vector Word 32) :
    AgreeOn d (raise e s) (raise e { s with regs := ρ }) :=
  ⟨rfl, rfl, rfl, rfl, rfl, fun h => absurd rfl h⟩

/-- An instruction that completes without writing a register, with the same memory in both. -/
theorem agreeOn_none (k : CountClass) (p : Word) (m : Memory) (s : State) (ρ : Vector Word 32) :
    AgreeOn none (complete k p { s with mem := m })
      (complete k p { s with regs := ρ, mem := m }) :=
  ⟨rfl, rfl, rfl, rfl, rfl, fun _ _ h => nomatch h⟩

theorem effectiveAddress_congr {s t : State} {rs1 : RegIdx} (imm : BitVec 12)
    (h : getReg rs1 t = getReg rs1 s) : effectiveAddress rs1 imm t = effectiveAddress rs1 imm s := by
  rw [effectiveAddress, h, effectiveAddress]

/-- Registers outside the sources do not interfere with what an instruction computes (R23). -/
theorem exec_agreeOn {i : Instr} {s t t' : State} {ρ : Vector Word 32}
    (same : ∀ r ∈ sources i, getReg r { s with regs := ρ } = getReg r s)
    (h : exec i s = .next t) (h' : exec i { s with regs := ρ } = .next t') :
    AgreeOn (destination i) t t' := by
  cases exec_handledBy i with
  | arithmetic rd value dest det eq =>
    rw [eq, det s _ same rfl] at h'
    cases (eq s).symm.trans h
    cases h'
    exact dest ▸ agreeOn_complete ..
  | load n extend rd rs1 imm dest base eq =>
    rw [eq] at h h'
    have ea := effectiveAddress_congr imm (same rs1 base)
    by_cases inside : inCode s.cfg (effectiveAddress rs1 imm s).toNat n = true ∨
        inStack s.cfg (effectiveAddress rs1 imm s).toNat n = true
    · rw [load_ok (by rwa [ea]), ea] at h'
      cases (load_ok inside).symm.trans h
      cases h'
      exact dest ▸ agreeOn_complete ..
    · rw [load_error (by rwa [ea]), ea] at h'
      cases (load_error inside).symm.trans h
      cases h'
      exact agreeOn_raise ..
  | store n rs2 rs1 imm dest base value eq =>
    rw [eq, Machine.store, memWrite] at h
    rw [eq, Machine.store, memWrite, effectiveAddress_congr imm (same rs1 base),
      same rs2 value] at h'
    split_ifs at h h' <;> cases h <;> cases h'
    · exact agreeOn_raise ..
    · exact dest ▸ agreeOn_none ..
    · exact agreeOn_raise ..
  | branch taken offset dest det eq =>
    rw [eq] at h
    rw [eq, det s _ same rfl] at h'
    cases ht : taken s <;> rw [ht] at h h' <;> cases h <;> cases h' <;>
      exact dest ▸ agreeOn_none _ _ s.mem s ρ
  | jump link target dest det eq =>
    rw [eq, det s _ same rfl] at h'
    cases (eq s).symm.trans h
    cases h'
    exact dest ▸ agreeOn_complete ..

end Sys2Proof.Machine
end

section
/-! The count stage: one instruction in exactly one class, and none on a step that ends the run
(spec/10_state.md R27, spec/40_fetch_and_step.md R128). -/

namespace Sys2Proof.Machine

open Sys2Proof.Safety

@[simp] theorem count_instructions (k : CountClass) (c : Counters) :
    (count k c).instructions = c.instructions + 1 := by
  cases k <;> rfl

/-- The count stage adds the same one to both sides of the balance (R28). -/
theorem countersBalance_count (k : CountClass) {c : Counters} (h : CountersBalance c) :
    CountersBalance (count k c) := by
  unfold CountersBalance at *
  cases k <;> simp only [count] <;> omega

/-- `d` is `c` with `instructions` and exactly one class counter incremented. -/
def CountedOne (c d : Counters) : Prop :=
  d = oneArithmetic c ∨ d = oneLoad c ∨ d = oneStore c ∨ d = oneJump c ∨ d = oneBranch true c ∨
    d = oneBranch false c

theorem countedOne_count (k : CountClass) (c : Counters) : CountedOne c (count k c) := by
  cases k with
  | arithmetic => exact .inl rfl
  | load => exact .inr (.inl rfl)
  | store => exact .inr (.inr (.inl rfl))
  | jump => exact .inr (.inr (.inr (.inl rfl)))
  | branchTaken => exact .inr (.inr (.inr (.inr (.inl rfl))))
  | branchNotTaken => exact .inr (.inr (.inr (.inr (.inr rfl))))

/-- What a step from counters `c` to `t` counts: one instruction when the run goes on, nothing when
it ends. -/
def CountsOnce (c : Counters) (t : State) : Prop :=
  (t.status = .running → CountedOne c t.cnt) ∧ (t.status ≠ .running → t.cnt = c)

theorem countsOnce_of_ended {c : Counters} {t : State} (ended : t.status ≠ .running)
    (same : t.cnt = c) : CountsOnce c t :=
  ⟨fun h => absurd h ended, fun _ => same⟩

theorem countsOnce_of_running {c : Counters} {t : State} (running : t.status = .running)
    (one : CountedOne c t.cnt) : CountsOnce c t :=
  ⟨fun _ => one, fun h => absurd running h⟩

theorem countsOnce_raise (e : RunError) (s : State) : CountsOnce s.cnt (raise e s) :=
  countsOnce_of_ended (by simp) rfl

/-- An instruction executed in a Running state counts once, or fails the run and counts nothing. -/
theorem exec_countsOnce {i : Instr} {s t : State} (running : s.status = .running)
    (h : exec i s = .next t) : CountsOnce s.cnt t := by
  obtain ⟨k, p, rd, v, eq, -⟩ | ⟨a, n, v, -, -, -, eq⟩ | ⟨e, eq⟩ := exec_cases i s <;>
    cases eq.symm.trans h
  · exact countsOnce_of_running (by simpa) (by simpa using countedOne_count k s.cnt)
  · exact countsOnce_of_running running (countedOne_count .store s.cnt)
  · exact countsOnce_raise e s

theorem step_countsOnce {s t : State} (h : step s = .next t) : CountsOnce s.cnt t := by
  obtain ⟨running, ⟨-, rfl⟩ | ⟨-, -, rfl⟩ | ⟨-, -, ⟨-, rfl⟩ | ⟨-, -, -, rfl⟩ |
    ⟨-, iw, s', hf, hdec⟩⟩⟩ := step_cases h
  · exact countsOnce_of_ended (by simp) rfl
  · exact countsOnce_raise ..
  · exact countsOnce_raise ..
  · exact countsOnce_raise ..
  · obtain ⟨-, -, hcnt, -, hstatus, -, -⟩ := fetchWord_keeps hf
    rw [← hcnt]
    obtain ⟨cause, -, rfl⟩ | ⟨i, -, hexec⟩ := hdec
    · exact countsOnce_raise ..
    · exact exec_countsOnce (hstatus.trans running) hexec

end Sys2Proof.Machine
end

section
/-! Launch (spec/10_state.md R37): the registers, the image and the stack bytes of the launch
state, read back. -/

namespace Sys2Proof.Machine

/-! ### Registers after launch -/

theorem getReg_of_ne_zero {r : RegIdx} (h : r ≠ 0#5) (s : State) :
    getReg r s = s.regs[r.toNat]'r.isLt :=
  if_neg h

/-- A register launch does not set keeps its unspecified content (`INIT_REGS`). -/
theorem launchRegs_unspecified (p : LaunchArgs) {k : Nat} (hk : k < 32)
    (h : (3 ≤ k ∧ k ≤ 9) ∨ 14 ≤ k) : (launchRegs p)[k] = p.initRegs[k] := by
  unfold launchRegs
  repeat rw [Vector.getElem_set_ne _ _ (by omega)]

/-- The registers launch sets (R233, R234, R235). -/
theorem getReg_launchState (p : LaunchArgs) :
    getReg 1#5 (launchState p) = p.cfg.stop ∧
      getReg 2#5 (launchState p) = p.cfg.stackBase + BitVec.ofNat 64 p.cfg.stackSize ∧
      getReg 10#5 (launchState p) = p.args[0] ∧ getReg 11#5 (launchState p) = p.args[1] ∧
      getReg 12#5 (launchState p) = p.args[2] ∧ getReg 13#5 (launchState p) = p.args[3] := by
  simp [getReg, launchState, launchRegs]

/-- The stack pointer is the end of the stack segment, which a valid configuration keeps below
`2 ^ 64` (R234). -/
theorem launch_sp_toNat {p : LaunchArgs} (valid : cfgValid p.cfg = true) :
    (p.cfg.stackBase + BitVec.ofNat 64 p.cfg.stackSize).toNat =
      p.cfg.stackBase.toNat + p.cfg.stackSize := by
  obtain ⟨-, -, -, -, fits, -⟩ := (cfgValid_iff p.cfg).1 valid
  rw [BitVec.toNat_add, BitVec.toNat_ofNat]
  omega

/-! ### Memory after launch -/

/-- A fetch reads the four bytes at its address only. -/
theorem codeWord_congr {m m' : Memory} {a : Nat}
    (h : ∀ p, a ≤ p → p < a + 4 → readByte m p = readByte m' p) :
    codeWord m a = codeWord m' a := by
  rw [codeWord, readBytes_congr h, codeWord]

theorem codeWord_writeBytes {m : Memory} (h : Memory.wf m) (a : Nat) (iw : InstrWord) :
    codeWord (writeBytes m a 4 (iw.setWidth 64)) a = iw := by
  apply BitVec.eq_of_toNat_eq
  rw [codeWord, readBytes_writeBytes h, BitVec.toNat_ofNat, BitVec.toNat_setWidth]
  have := iw.isLt
  omega

/-- Word `k` of a placed image is read back at its own address: the words after it lie above. -/
theorem codeWord_placeImage {m : Memory} (h : Memory.wf m) {a k : Nat} {ws : List InstrWord}
    {iw : InstrWord} (hk : ws[k]? = some iw) : codeWord (placeImage m a ws) (a + 4 * k) = iw := by
  induction ws generalizing m a k with
  | nil => cases hk
  | cons w ws ih =>
    have hw : Memory.wf (writeBytes m a 4 (w.setWidth 64)) := wf_writeBytes h _ _ _
    cases k with
    | zero =>
      cases hk
      calc codeWord (placeImage (writeBytes m a 4 (iw.setWidth 64)) (a + 4) ws) a
        _ = codeWord (writeBytes m a 4 (iw.setWidth 64)) a :=
          codeWord_congr fun p _ hp => readByte_placeImage_of_outside hw (.inl hp)
        _ = iw := codeWord_writeBytes h a iw
    | succ k =>
      rw [placeImage, show a + 4 * (k + 1) = a + 4 + 4 * k by omega]
      exact ih hw hk

theorem wf_nil : Memory.wf [] := ⟨List.Pairwise.nil, by simp⟩

/-- The segments are disjoint, so placing the stack bytes leaves the code segment as the image. -/
theorem readByte_launchMem_of_code {p : LaunchArgs} (valid : cfgValid p.cfg = true) {a : Nat}
    (inside : inCode p.cfg a 1 = true) :
    readByte (launchMem p) a = readByte (placeImage [] p.cfg.codeBase.toNat p.image) a := by
  obtain ⟨-, -, -, -, -, disjoint, -⟩ := (cfgValid_iff p.cfg).1 valid
  rw [inCode_iff] at inside
  rw [launchMem, readByte_placeBytes (wf_placeImage wf_nil _ _), if_neg]
  rw [List.length_take]
  omega

theorem codeWord_launchMem {p : LaunchArgs} (valid : cfgValid p.cfg = true)
    (image_length : p.image.length = p.cfg.codeWords) {k : Nat} {iw : InstrWord}
    (hk : p.image[k]? = some iw) :
    codeWord (launchMem p) (p.cfg.codeBase.toNat + 4 * k) = iw := by
  have bound : k < p.image.length := (List.getElem?_eq_some_iff.1 hk).1
  rw [← codeWord_placeImage wf_nil (a := p.cfg.codeBase.toNat) hk]
  refine codeWord_congr fun q _ _ => readByte_launchMem_of_code valid ?_
  rw [inCode_iff]
  omega

/-- A stack byte is the listed one, and the image has put nothing where none is listed. -/
theorem readByte_launchMem_of_stack {p : LaunchArgs} (valid : cfgValid p.cfg = true)
    (image_length : p.image.length = p.cfg.codeWords) {j : Nat} (hj : j < p.cfg.stackSize) :
    readByte (launchMem p) (p.cfg.stackBase.toNat + j) =
      p.initStack.getD j Config.unlistedByte := by
  obtain ⟨-, -, -, -, -, disjoint, -⟩ := (cfgValid_iff p.cfg).1 valid
  rw [launchMem, readByte_placeBytes (wf_placeImage wf_nil _ _), List.length_take]
  by_cases listed : j < p.initStack.length
  · rw [if_pos (by omega)]
    simp [hj, listed, List.getD]
  · rw [if_neg (by omega), readByte_placeImage_of_outside wf_nil (by omega)]
    simp [List.getD, List.getElem?_eq_none (Nat.le_of_not_lt listed), readByte]

/-- Launch lists bytes of the image and of the stack only (R33, R230). -/
theorem launchMem_inSegments {p : LaunchArgs} (image_length : p.image.length = p.cfg.codeWords)
    {c : Host.Cell} (hc : c ∈ launchMem p) :
    inCode p.cfg c.1 1 = true ∨ inStack p.cfg c.1 1 = true := by
  rw [inCode_iff, inStack_iff]
  rcases mem_placeBytes hc with image | stack
  · rcases mem_placeImage image with none | image
    · cases none
    · exact .inl (by omega)
  · rw [List.length_take] at stack
    exact .inr (by omega)

end Sys2Proof.Machine
end

section
/-! The invariant of the machine: it holds after every launch, and every step keeps it
(spec/10_state.md R28, R32, R33; spec/20_memory.md R77; spec/40_fetch_and_step.md R124, R135). -/

namespace Sys2Proof.Machine

open Sys2Proof.Safety

/-! ### Parts of the invariant -/

theorem memoryInSegments_congr {s t : State} (hmem : t.mem = s.mem) (hcfg : t.cfg = s.cfg)
    (h : MemoryInSegments s) : MemoryInSegments t := by
  unfold MemoryInSegments
  rwa [hmem, hcfg]

theorem cacheCoherent_congr {s t : State} (hlines : t.lines = s.lines) (hmem : t.mem = s.mem)
    (hcfg : t.cfg = s.cfg) (h : CacheCoherent s) : CacheCoherent t := by
  unfold CacheCoherent LineCoherent
  rwa [hlines, hmem, hcfg]

/-- A store to the stack segment keeps memory canonical and inside the segments (R33). -/
theorem memoryInSegments_writeBytes {s : State} {a n : Nat} (inside : inStack s.cfg a n = true)
    (v : Word) (h : MemoryInSegments s) :
    MemoryInSegments { s with mem := writeBytes s.mem a n v } := by
  obtain ⟨wf, segments⟩ := h
  refine ⟨wf_writeBytes wf a n v, fun c hc => ?_⟩
  rcases mem_writeBytes hc with old | ⟨lo, hi⟩
  · exact segments c old
  · rw [inStack_iff] at inside
    exact .inr ((inStack_iff s.cfg ..).2 (by omega))

/-- The segments are disjoint, so a store to the stack changes no code word (R51, R58). -/
theorem codeWord_writeBytes_of_stack {s : State} {a n c : Nat} (valid : cfgValid s.cfg = true)
    (wf : Memory.wf s.mem) (stack : inStack s.cfg a n = true) (code : inCode s.cfg c 4 = true)
    (v : Word) : codeWord (writeBytes s.mem a n v) c = codeWord s.mem c := by
  obtain ⟨-, -, -, -, -, disjoint, -⟩ := (cfgValid_iff s.cfg).1 valid
  rw [inStack_iff] at stack
  rw [inCode_iff] at code
  refine codeWord_congr fun p lo hi => ?_
  rw [readByte_writeBytes wf, if_neg (by omega)]

theorem cacheCoherent_writeBytes {s : State} {a n : Nat} (valid : cfgValid s.cfg = true)
    (wf : Memory.wf s.mem) (stack : inStack s.cfg a n = true) (v : Word) (h : CacheCoherent s) :
    CacheCoherent { s with mem := writeBytes s.mem a n v } := by
  obtain ⟨length, coherent⟩ := h
  refine ⟨length, fun i l hl hv => ?_⟩
  obtain ⟨tag, code, index, word⟩ := coherent i l hl hv
  exact ⟨tag, code, index, word.trans (codeWord_writeBytes_of_stack valid wf stack code v).symm⟩

/-- Filling a line with the code word at an aligned address in the code segment keeps the cache
coherent (R73, R74). -/
theorem cacheCoherent_fillLine {s : State} {a : Word} (ha : a.toNat % 4 = 0)
    (code : inCode s.cfg a.toNat 4 = true) (h : CacheCoherent s) :
    CacheCoherent (fillLine s a (codeWord s.mem a.toNat)) := by
  obtain ⟨length, coherent⟩ := h
  refine ⟨by simpa using length, fun i l hl => ?_⟩
  rw [fillLine_lines, List.getElem?_set] at hl
  split_ifs at hl with same bound
  · cases hl
    exact fun _ => ⟨ha, code, same, rfl⟩
  · exact coherent i l hl

/-- A fetch at an aligned address keeps the cache coherent (R77). -/
theorem cacheCoherent_fetchWord {a : Word} {s s' : State} {iw : InstrWord}
    (ha : a.toNat % 4 = 0) (hf : fetchWord a s = .word iw s') (h : CacheCoherent s) :
    CacheCoherent s' := by
  obtain ⟨-, rfl⟩ | ⟨-, code, rfl, rfl⟩ := fetchWord_word hf
  · exact h
  · exact cacheCoherent_fillLine (s := emit (.miss a) s) ha code h

/-- A fetch that answers a word puts out one event (R79). -/
theorem fetchWord_trace_length {a : Word} {s s' : State} {iw : InstrWord}
    (hf : fetchWord a s = .word iw s') : s'.trace.length = s.trace.length + 1 := by
  obtain ⟨-, rfl⟩ | ⟨-, -, -, rfl⟩ := fetchWord_word hf <;> simp

/-! ### Launch -/

theorem cacheCoherent_of_invalid {s : State} (length : s.lines.length = s.cfg.cacheLines)
    (invalid : ∀ l ∈ s.lines, l.valid = false) : CacheCoherent s := by
  refine ⟨length, fun i l hl hv => ?_⟩
  have : l.valid = false := invalid l (List.mem_of_getElem? hl)
  simp [this] at hv

theorem invariant_launchState {p : LaunchArgs} (valid : cfgValid p.cfg = true)
    (image_length : p.image.length = p.cfg.codeWords) : Invariant (launchState p) where
  cfg_valid := valid
  memory := ⟨wf_launchMem p, fun _ hc => launchMem_inSegments image_length hc⟩
  cache := cacheCoherent_of_invalid (length_initCache ..) fun _ hl => initCache_valid hl
  counters := rfl
  err_iff := by simp [ErrorIffFailed, launchState]
  limit := fun _ _ => Nat.zero_le _
  pc_even := by
    obtain ⟨codeBase_aligned, -⟩ := (cfgValid_iff p.cfg).1 valid
    show p.cfg.codeBase.toNat % 2 = 0
    omega
  trace := by simp [TraceCounts, launchState, Counters.zero]

/-! ### Between the fetch and the end of a step -/

/-- What holds after the fetch of a step: the invariant of a Running state below the limit, but with
the event of the fetch ahead of the counters. -/
structure AfterFetch (s : State) : Prop where
  cfg_valid : cfgValid s.cfg = true
  memory : MemoryInSegments s
  cache : CacheCoherent s
  counters : CountersBalance s.cnt
  running : s.status = .running
  no_err : s.err = none
  below_limit : ∀ n, s.cfg.maxSteps = some n → s.cnt.instructions < n
  pc_even : PcEven s
  trace : s.trace.length = s.cnt.instructions + 1

theorem no_err_of_invariant {s : State} (h : Invariant s) (running : s.status = .running) :
    s.err = none := by
  by_contra some_err
  have := h.err_iff.2 some_err
  simp [running] at this

theorem afterFetch_of_fetchWord {s s' : State} {iw : InstrWord} (h : Invariant s)
    (running : s.status = .running) (below : limitReached s = false)
    (haligned : aligned s.pc = true) (hf : fetchWord s.pc s = .word iw s') : AfterFetch s' := by
  obtain ⟨-, hpc, hcnt, hcfg, hstatus, herr, hmem⟩ := fetchWord_keeps hf
  have one_event : s.trace.length = s.cnt.instructions := h.trace.1 (by simp [running])
  exact {
    cfg_valid := hcfg ▸ h.cfg_valid
    memory := memoryInSegments_congr hmem hcfg h.memory
    cache := cacheCoherent_fetchWord ((aligned_iff _).1 haligned) hf h.cache
    counters := hcnt ▸ h.counters
    running := hstatus.trans running
    no_err := herr.trans (no_err_of_invariant h running)
    below_limit := by
      rw [hcfg, hcnt]
      exact (limitReached_eq_false_iff s).1 below
    pc_even := by
      rw [PcEven, hpc]
      exact h.pc_even
    trace := by rw [fetchWord_trace_length hf, one_event, hcnt] }

/-- An error raised after the fetch: its event stays, one ahead of the counters (R207). -/
theorem AfterFetch.invariant_raise {s : State} (h : AfterFetch s) (e : RunError) :
    Invariant (raise e s) where
  cfg_valid := h.cfg_valid
  memory := h.memory
  cache := h.cache
  counters := h.counters
  err_iff := by simp [ErrorIffFailed]
  limit := fun n hn => Nat.le_of_lt (h.below_limit n hn)
  pc_even := h.pc_even
  trace := by simp [TraceCounts, h.trace]

/-- The count stage catches up with the event of the fetch and stays within the limit. -/
theorem AfterFetch.invariant_complete {s : State} (h : AfterFetch s) (k : CountClass) {p : Word}
    (even : p.toNat % 2 = 0) : Invariant (complete k p s) where
  cfg_valid := h.cfg_valid
  memory := h.memory
  cache := h.cache
  counters := countersBalance_count k h.counters
  err_iff := by simp [ErrorIffFailed, h.running, h.no_err]
  limit := fun n hn => by
    have := h.below_limit n hn
    simpa using this
  pc_even := even
  trace := by simp [TraceCounts, h.trace]

theorem AfterFetch.setReg {s : State} (h : AfterFetch s) (rd : RegIdx) (v : Word) :
    AfterFetch (setReg rd v s) where
  cfg_valid := by simpa using h.cfg_valid
  memory := memoryInSegments_congr (by simp) (by simp) h.memory
  cache := cacheCoherent_congr (by simp) (by simp) (by simp) h.cache
  counters := by simpa using h.counters
  running := by simpa using h.running
  no_err := by simpa using h.no_err
  below_limit := by simpa using h.below_limit
  pc_even := by simpa [PcEven] using h.pc_even
  trace := by simpa using h.trace

theorem AfterFetch.writeBytes {s : State} (h : AfterFetch s) {a n : Nat}
    (stack : inStack s.cfg a n = true) (v : Word) :
    AfterFetch { s with mem := writeBytes s.mem a n v } :=
  { h with
    memory := memoryInSegments_writeBytes stack v h.memory
    cache := cacheCoherent_writeBytes h.cfg_valid h.memory.1 stack v h.cache }

/-- A well-formed instruction leads from after the fetch back to the invariant. -/
theorem AfterFetch.invariant_exec {i : Instr} {s t : State} (h : AfterFetch s)
    (wf : i.wellFormed = true) (hexec : exec i s = .next t) : Invariant t := by
  obtain ⟨k, p, rd, v, eq, even⟩ | ⟨a, n, v, -, stack, -, eq⟩ | ⟨e, eq⟩ := exec_cases i s <;>
    cases eq.symm.trans hexec
  · exact (h.setReg rd v).invariant_complete k (even wf h.pc_even)
  · exact (h.writeBytes stack v).invariant_complete .store (nextPc_even h.pc_even)
  · exact h.invariant_raise e

/-! ### One step -/

theorem invariant_stopped {s : State} (h : Invariant s) (running : s.status = .running) :
    Invariant { s with status := .stopped } where
  cfg_valid := h.cfg_valid
  memory := h.memory
  cache := h.cache
  counters := h.counters
  err_iff := by simp [ErrorIffFailed, no_err_of_invariant h running]
  limit := h.limit
  pc_even := h.pc_even
  trace := ⟨fun _ => h.trace.1 (by simp [running]), h.trace.2⟩

/-- An error raised before the fetch. -/
theorem invariant_raise {s : State} (h : Invariant s) (e : RunError) : Invariant (raise e s) where
  cfg_valid := h.cfg_valid
  memory := h.memory
  cache := h.cache
  counters := h.counters
  err_iff := by simp [ErrorIffFailed]
  limit := h.limit
  pc_even := h.pc_even
  trace := ⟨fun not_failed => absurd rfl not_failed, h.trace.2⟩

theorem invariant_step {s t : State} (h : Invariant s) (hstep : step s = .next t) :
    Invariant t := by
  obtain ⟨running, ⟨-, rfl⟩ | ⟨-, -, rfl⟩ | ⟨-, below, ⟨-, rfl⟩ | ⟨-, -, -, rfl⟩ |
    ⟨haligned, iw, s', hf, hdec⟩⟩⟩ := step_cases hstep
  · exact invariant_stopped h running
  · exact invariant_raise h _
  · exact invariant_raise h _
  · exact invariant_raise h _
  · have after : AfterFetch s' := afterFetch_of_fetchWord h running below haligned hf
    obtain ⟨cause, -, rfl⟩ | ⟨i, hi, hexec⟩ := hdec
    · exact after.invariant_raise _
    · exact after.invariant_exec (decode_wellFormed hi) hexec

end Sys2Proof.Machine
end

section
/-! The statements of spec/10_state.md settled from the lemmas above. -/

namespace Sys2Proof.Proofs.MachineState

open Sys2Proof.Machine Sys2Proof.Safety

/-- Settles O54: a step ends the run with an error raised before its fetch, or stops it, or carries
the invariant through its fetch (`AfterFetch`) and through one well-formed instruction. -/
theorem invariantKeptByEveryStep : Obligations.InvariantKeptByEveryStep :=
  fun _ _ h hstep => invariant_step h hstep

/-- Settles O9: by the handler each instruction ends in. -/
theorem instructionsTouchOnlyNamedRegisters : Obligations.InstructionsTouchOnlyNamedRegisters := by
  refine ⟨fun i s t h r hr => exec_getReg_of_ne_destination h hr, ?_⟩
  intro i s ρ t t' same h h'
  obtain ⟨pc, cnt, mem, status, err, dest⟩ := exec_agreeOn same h h'
  exact ⟨pc, cnt, mem, status, err, dest⟩

/-- Settles O41: the count stage is the only one that counts, and a step that ends the run does not
reach it. -/
theorem eachInstructionCountsOnce : Obligations.EachInstructionCountsOnce :=
  fun _ _ h => step_countsOnce h

/-- Settles O50: register by register, and byte by byte through the disjoint segments. -/
theorem launchSetsEveryValue : Obligations.LaunchSetsEveryValue := by
  intro p s h
  obtain ⟨valid, image_length, rfl⟩ := launch_next h
  have unspecified : ∀ r : RegIdx, (3 ≤ r.toNat ∧ r.toNat ≤ 9) ∨ 14 ≤ r.toNat →
      getReg r (launchState p) = p.initRegs[r.toNat]'r.isLt := fun r hr => by
    rw [getReg_of_ne_zero (by rintro rfl; simp at hr)]
    exact launchRegs_unspecified p r.isLt hr
  obtain ⟨x1, x2, x10, x11, x12, x13⟩ := getReg_launchState p
  have sp : (getReg 2#5 (launchState p)).toNat = p.cfg.stackBase.toNat + p.cfg.stackSize := by
    rw [x2, launch_sp_toNat valid]
  exact ⟨x1, sp, x10, x11, x12, x13, unspecified, rfl, rfl, rfl, rfl, rfl, rfl,
    fun _ _ hk => codeWord_launchMem valid image_length hk,
    fun _ hj => readByte_launchMem_of_stack valid image_length hj⟩

/-- Settles O52: an accepted launch answers the launch state of a valid configuration. -/
theorem invariantAfterLaunch : Obligations.InvariantAfterLaunch := by
  intro p s h
  obtain ⟨valid, image_length, rfl⟩ := launch_next h
  exact invariant_launchState valid image_length

/-- Settles O8: the register file's read-after-write laws. -/
theorem registerZeroIsHardWired : Obligations.RegisterZeroIsHardWired :=
  ⟨getReg_zero, setReg_zero, getReg_setReg⟩

/-- Settles O35: the alignment check stands before the fetch. -/
theorem misalignedPcFailsTheRun : Obligations.MisalignedPcFailsTheRun := by
  intro s running not_stop below misaligned
  apply step_of_front_over
  rw [front_of_running running]
  exact runningFront_of_misaligned not_stop ((limitReached_eq_false_iff s).2 below)
    (Bool.eq_false_iff.2 fun h => misaligned ((aligned_iff _).1 h))

/-- Settles O38: the front of the step answers the fault itself. -/
theorem terminalStatesTakeNoStep : Obligations.TerminalStatesTakeNoStep := by
  intro s
  by_cases running : s.status = .running
  · exact .inl running
  · exact .inr (step_of_front_over (front_of_not_running running))

/-- Settles O53: the reset state is the state of one accepted launch. -/
theorem invariantAtReset : Obligations.InvariantAtReset :=
  invariantAfterLaunch resetArgs State.reset launch_resetArgs

end Sys2Proof.Proofs.MachineState
end

section
/-! The one equation of a step per branch of spec/40_fetch_and_step.md R121: what the front decides
is what the step answers. -/

namespace Sys2Proof.Machine

/-- Below the STOP check and the limit, an aligned pc is fetched (R123 to R125). -/
theorem runningFront_of_aligned {s : State} (not_stop : s.pc ≠ s.cfg.stop)
    (below_limit : limitReached s = false) (haligned : aligned s.pc = true) :
    runningFront s = fetchStage s := by
  rw [runningFront, if_neg not_stop, if_neg (by simp [below_limit]), if_pos haligned]

theorem fetchStage_of_word {s s' : State} {iw : InstrWord} (h : fetchWord s.pc s = .word iw s') :
    fetchStage s = decodeStage iw s' := by
  rw [fetchStage, h]

theorem fetchStage_of_error {s : State} {e : RunError} (h : fetchWord s.pc s = .error e) :
    fetchStage s = .over (.next (raise e s)) := by
  rw [fetchStage, h]

theorem step_of_stop {s : State} (running : s.status = .running) (at_stop : s.pc = s.cfg.stop) :
    step s = .next { s with status := .stopped } := by
  apply step_of_front_over
  rw [front_of_running running, runningFront, if_pos at_stop]

theorem step_of_limit {s : State} (running : s.status = .running) (not_stop : s.pc ≠ s.cfg.stop)
    (limit : limitReached s = true) :
    step s = .next (raise (.stepLimitExceeded s.pc s.cnt.instructions) s) := by
  apply step_of_front_over
  rw [front_of_running running, runningFront, if_neg not_stop, if_pos limit]

theorem step_of_misaligned {s : State} (running : s.status = .running)
    (not_stop : s.pc ≠ s.cfg.stop) (below_limit : limitReached s = false)
    (misaligned : aligned s.pc = false) :
    step s = .next (raise (.memoryError .fetch s.pc 4 .fetchMisaligned s.pc) s) := by
  apply step_of_front_over
  rw [front_of_running running, runningFront_of_misaligned not_stop below_limit misaligned]

/-- The step from `s` consults the cache: Running, not at STOP, below the limit, aligned (R121 lines
1 to 3). -/
structure Fetches (s : State) : Prop where
  running : s.status = .running
  not_stop : s.pc ≠ s.cfg.stop
  below_limit : limitReached s = false
  pc_aligned : aligned s.pc = true

theorem Fetches.front_eq {s : State} (h : Fetches s) : front s = fetchStage s := by
  rw [front_of_running h.running, runningFront_of_aligned h.not_stop h.below_limit h.pc_aligned]

theorem Fetches.step_of_error {s : State} {e : RunError} (h : Fetches s)
    (hf : fetchWord s.pc s = .error e) : step s = .next (raise e s) :=
  step_of_front_over (by rw [h.front_eq, fetchStage_of_error hf])

theorem Fetches.step_of_illegal {s s' : State} {iw : InstrWord} {cause : DecodeCause}
    (h : Fetches s) (hf : fetchWord s.pc s = .word iw s') (hd : decode iw = .illegal cause) :
    step s = .next (raise (.decodeError cause iw s'.pc) s') :=
  step_of_front_over (by rw [h.front_eq, fetchStage_of_word hf, decodeStage, hd])

theorem Fetches.step_of_instr {s s' : State} {iw : InstrWord} {i : Instr} (h : Fetches s)
    (hf : fetchWord s.pc s = .word iw s') (hd : decode iw = .instr i) :
    step s = exec i s' := by
  rw [step, h.front_eq, fetchStage_of_word hf, decodeStage, hd]

end Sys2Proof.Machine
end

section
/-! The instruction cache (spec/20_memory.md R71 to R77): what a lookup answers, what a fetch leaves
in the line it indexes, and what coherence makes of a fetch. -/

namespace Sys2Proof.Machine

open Sys2Proof.Safety

/-! ### Lookup and fill -/

/-- A lookup answers a word exactly when the indexed line is valid with the whole address as its
tag (R71, R72). -/
theorem lookup_eq_some_iff {s : State} {a : Word} {iw : InstrWord} :
    lookup s a = some iw ↔
      ∃ l, s.lines[lineIndex s.cfg a]? = some l ∧ l.valid = true ∧ l.tag = a ∧ l.word = iw := by
  refine ⟨lookup_some, ?_⟩
  rintro ⟨l, hl, valid, tag, word⟩
  rw [lookup, hl]
  simp [valid, tag, word]

/-- The line a fill leaves at its index (R73). -/
theorem fillLine_getElem? {s : State} {a : Word} (iw : InstrWord)
    (bound : lineIndex s.cfg a < s.lines.length) :
    (fillLine s a iw).lines[lineIndex s.cfg a]? = some ⟨a, true, iw⟩ := by
  rw [fillLine_lines, List.getElem?_set_self bound]

theorem lookup_fillLine_same {s : State} {a : Word} (iw : InstrWord)
    (bound : lineIndex s.cfg a < s.lines.length) : lookup (fillLine s a iw) a = some iw :=
  lookup_eq_some_iff.2 ⟨_, fillLine_getElem? iw bound, rfl, rfl, rfl⟩

/-- Every index has a line when there are `CACHE_LINES` lines, at least one (R34). -/
theorem lineIndex_lt {s : State} (length : s.lines.length = s.cfg.cacheLines)
    (pos : 1 ≤ s.cfg.cacheLines) (a : Word) : lineIndex s.cfg a < s.lines.length :=
  length ▸ Nat.mod_lt _ pos

/-- What was fetched is found: after a hit the line is the one that hit, after a miss the one
filled. -/
theorem lookup_of_fetchWord {a : Word} {s t : State} {iw : InstrWord}
    (bound : lineIndex s.cfg a < s.lines.length) (hf : fetchWord a s = .word iw t) :
    lookup t a = some iw := by
  obtain ⟨hit, rfl⟩ | ⟨-, -, -, rfl⟩ := fetchWord_word hf
  · exact hit
  · exact lookup_fillLine_same (s := emit (.miss a) s) iw bound

theorem fetchWord_of_hit {a : Word} {s : State} {iw : InstrWord} (h : lookup s a = some iw) :
    fetchWord a s = .word iw (emit (.hit a) s) := by
  rw [fetchWord, h]

/-- One line holds one tag: an address that shares the line of a cached one is not cached. -/
theorem lookup_eq_none_of_collide {s : State} {a b : Word} {iw : InstrWord}
    (collide : Collide s.cfg a b) (h : lookup s a = some iw) : lookup s b = none := by
  obtain ⟨differ, same_line⟩ := collide
  obtain ⟨l, hl, -, tag, -⟩ := lookup_some h
  by_contra found
  obtain ⟨w, hw⟩ := Option.ne_none_iff_exists'.1 found
  obtain ⟨l', hl', -, tag', -⟩ := lookup_some hw
  rw [← same_line, hl] at hl'
  cases hl'
  exact differ (tag.symm.trans tag')

end Sys2Proof.Machine

namespace Sys2Proof.Safety

open Sys2Proof.Machine

/-! ### Coherent caches -/

/-- In a coherent cache a hit is an address of the code segment and answers its code word (R77). -/
theorem CacheCoherent.of_lookup {s : State} (h : CacheCoherent s) {a : Word} {iw : InstrWord}
    (found : lookup s a = some iw) :
    inCode s.cfg a.toNat 4 = true ∧ iw = codeWord s.mem a.toNat := by
  obtain ⟨l, hl, valid, rfl, rfl⟩ := lookup_some found
  obtain ⟨-, code, -, word⟩ := h.2 _ l hl valid
  exact ⟨code, word⟩

/-- With a coherent cache a fetch in the code segment answers the code word, hit or miss (R78). -/
theorem CacheCoherent.fetchWord_of_inCode {s : State} (h : CacheCoherent s) {a : Word}
    (code : inCode s.cfg a.toNat 4 = true) :
    ∃ s', fetchWord a s = .word (codeWord s.mem a.toNat) s' := by
  cases found : lookup s a with
  | some iw =>
    obtain ⟨-, rfl⟩ := h.of_lookup found
    exact ⟨_, fetchWord_of_hit found⟩
  | none =>
    rw [fetchWord, found]
    exact ⟨_, if_pos code⟩

/-- With a coherent cache no line answers an address outside the code segment, so the fetch is
refused (R59, R76). -/
theorem CacheCoherent.fetchWord_of_not_inCode {s : State} (h : CacheCoherent s) {a : Word}
    (outside : inCode s.cfg a.toNat 4 = false) :
    fetchWord a s = .error (.memoryError .fetch a 4 .fetchOutsideCode s.pc) := by
  cases found : lookup s a with
  | some iw =>
    obtain ⟨code, -⟩ := h.of_lookup found
    simp [outside] at code
  | none =>
    rw [fetchWord, found]
    exact if_neg (by simp [outside])

end Sys2Proof.Safety
end

section
/-! Cache transparency (spec/20_memory.md R78): every operation takes machines of the same
architecture to machines of the same architecture, whatever their caches hold. -/

namespace Sys2Proof.Safety

open Sys2Proof.Machine

/-! ### What machines of the same architecture share -/

section Pair
variable {s t : State} (h : SameArchitecture s t)
include h

theorem SameArchitecture.stop_eq : s.cfg.stop = t.cfg.stop := by
  rw [← h.cfg_eq]

theorem SameArchitecture.limitReached_eq : limitReached s = limitReached t := by
  rw [limitReached, limitReached, h.cnt_eq, ← h.cfg_eq]

theorem SameArchitecture.inCode_eq (a n : Nat) : inCode s.cfg a n = inCode t.cfg a n := by
  rw [← h.cfg_eq]
  rfl

theorem SameArchitecture.inStack_eq (a n : Nat) : inStack s.cfg a n = inStack t.cfg a n := by
  rw [← h.cfg_eq]
  rfl

theorem SameArchitecture.readBytes_eq (a n : Nat) : readBytes s.mem a n = readBytes t.mem a n :=
  readBytes_congr fun p _ _ => h.bytes_eq p

theorem SameArchitecture.codeWord_eq (a : Nat) : codeWord s.mem a = codeWord t.mem a :=
  codeWord_congr fun p _ _ => h.bytes_eq p

theorem SameArchitecture.nextPc_eq : nextPc s = nextPc t := by
  rw [nextPc, nextPc, h.pc_eq]

theorem SameArchitecture.effectiveAddress_eq (rs1 : RegIdx) (imm : BitVec 12) :
    effectiveAddress rs1 imm s = effectiveAddress rs1 imm t :=
  effectiveAddress_congr imm (h.regs_eq rs1)

/-- What an instruction computes from its sources and the pc. -/
theorem SameArchitecture.sourceDetermined_eq {α : Type} {i : Instr} {f : State → α}
    (det : SourceDetermined i f) : f s = f t :=
  det t s (fun r _ => h.regs_eq r) h.pc_eq

/-! ### What keeps them so -/

theorem SameArchitecture.complete (k : CountClass) {p q : Word} (hp : p = q) :
    SameArchitecture (complete k p s) (complete k q t) :=
  { h with
    pc_eq := hp
    cnt_eq := congrArg (count k) h.cnt_eq }

theorem SameArchitecture.raise {e f : RunError} (he : e = f) :
    SameArchitecture (raise e s) (raise f t) :=
  { h with
    status_eq := rfl
    err_eq := congrArg some he }

theorem SameArchitecture.stopped :
    SameArchitecture { s with status := .stopped } { t with status := .stopped } :=
  { h with status_eq := rfl }

theorem SameArchitecture.setReg (rd : RegIdx) (v : Word) :
    SameArchitecture (setReg rd v s) (setReg rd v t) where
  regs_eq r := by rw [getReg_setReg, getReg_setReg, h.regs_eq]
  pc_eq := by simpa using h.pc_eq
  cnt_eq := by simpa using h.cnt_eq
  status_eq := by simpa using h.status_eq
  err_eq := by simpa using h.err_eq
  bytes_eq := by simpa using h.bytes_eq
  cfg_eq := by simpa using h.cfg_eq

/-- A store: canonical memories with the same bytes stay so. -/
theorem SameArchitecture.writeBytes (wfs : Memory.wf s.mem) (wft : Memory.wf t.mem) (a n : Nat)
    (v : Word) :
    SameArchitecture { s with mem := writeBytes s.mem a n v }
      { t with mem := writeBytes t.mem a n v } :=
  { h with
    bytes_eq := fun p => by
      rw [readByte_writeBytes wfs, readByte_writeBytes wft, h.bytes_eq] }

/-- A fetch changes the lines and the trace only. -/
theorem SameArchitecture.fetchWord {a b : Word} {s' t' : State} {iw jw : InstrWord}
    (hs : fetchWord a s = .word iw s') (ht : fetchWord b t = .word jw t') :
    SameArchitecture s' t' := by
  obtain ⟨regs, pc, cnt, cfg, status, err, mem⟩ := fetchWord_keeps hs
  obtain ⟨regs', pc', cnt', cfg', status', err', mem'⟩ := fetchWord_keeps ht
  constructor
  · exact fun r => by rw [getReg_congr regs, getReg_congr regs', h.regs_eq]
  · rw [pc, pc', h.pc_eq]
  · rw [cnt, cnt', h.cnt_eq]
  · rw [status, status', h.status_eq]
  · rw [err, err', h.err_eq]
  · rw [mem, mem']
    exact h.bytes_eq
  · rw [cfg, cfg', h.cfg_eq]

/-! ### The five handlers -/

theorem SameArchitecture.writeResult (rd : RegIdx) (v : Word) :
    SameOutcome (writeResult rd v s) (writeResult rd v t) :=
  (h.setReg rd v).complete .arithmetic h.nextPc_eq

theorem SameArchitecture.jump (link : RegIdx) (target : Word) :
    SameOutcome (jump link target s) (jump link target t) := by
  rw [Machine.jump, Machine.jump, h.nextPc_eq]
  exact (h.setReg link _).complete .jump rfl

theorem SameArchitecture.branch (taken : Bool) (offset : BitVec 13) :
    SameOutcome (branch taken offset s) (branch taken offset t) := by
  cases taken
  · exact h.complete .branchNotTaken h.nextPc_eq
  · exact h.complete .branchTaken (congrArg (· + sext offset) h.pc_eq)

theorem SameArchitecture.load (n : Nat) (extend : Nat → Word) (rd rs1 : RegIdx)
    (imm : BitVec 12) : SameOutcome (load n extend rd rs1 imm s) (load n extend rd rs1 imm t) := by
  rw [Machine.load, Machine.load, memRead, memRead, h.effectiveAddress_eq, h.inCode_eq,
    h.inStack_eq, h.readBytes_eq, h.pc_eq]
  split_ifs
  · exact (h.setReg rd _).complete .load h.nextPc_eq
  · exact h.raise rfl

theorem SameArchitecture.store (wfs : Memory.wf s.mem) (wft : Memory.wf t.mem) (n : Nat)
    (rs2 rs1 : RegIdx) (imm : BitVec 12) :
    SameOutcome (store n rs2 rs1 imm s) (store n rs2 rs1 imm t) := by
  rw [Machine.store, Machine.store, memWrite, memWrite, h.effectiveAddress_eq, h.inCode_eq,
    h.inStack_eq, h.regs_eq, h.pc_eq]
  split_ifs
  · exact h.raise rfl
  · exact (h.writeBytes wfs wft _ n _).complete .store h.nextPc_eq
  · exact h.raise rfl

/-! ### One instruction, one step -/

theorem SameArchitecture.exec (wfs : Memory.wf s.mem) (wft : Memory.wf t.mem) (i : Instr) :
    SameOutcome (exec i s) (exec i t) := by
  cases exec_handledBy i with
  | arithmetic rd value _ det eq =>
    rw [eq, eq, h.sourceDetermined_eq det]
    exact h.writeResult rd _
  | load n extend rd rs1 imm _ _ eq =>
    rw [eq, eq]
    exact h.load n extend rd rs1 imm
  | store n rs2 rs1 imm _ _ _ eq =>
    rw [eq, eq]
    exact h.store wfs wft n rs2 rs1 imm
  | branch taken offset _ det eq =>
    rw [eq, eq, h.sourceDetermined_eq det]
    exact h.branch _ offset
  | jump link target _ det eq =>
    rw [eq, eq, h.sourceDetermined_eq det]
    exact h.jump link _

theorem SameArchitecture.fetches (hs : Fetches s) : Fetches t where
  running := h.status_eq ▸ hs.running
  not_stop := h.pc_eq ▸ h.stop_eq ▸ hs.not_stop
  below_limit := h.limitReached_eq ▸ hs.below_limit
  pc_aligned := h.pc_eq ▸ hs.pc_aligned

/-- A step that consults the cache: by coherence both caches answer the code word, or both refuse
(R77). -/
theorem SameArchitecture.step_of_fetches (invs : Invariant s) (invt : Invariant t)
    (hs : Fetches s) : SameOutcome (step s) (step t) := by
  have ht := h.fetches hs
  have same_bounds : inCode s.cfg s.pc.toNat 4 = inCode t.cfg t.pc.toNat 4 := by
    rw [h.inCode_eq, h.pc_eq]
  have same_word : codeWord s.mem s.pc.toNat = codeWord t.mem t.pc.toNat := by
    rw [h.codeWord_eq, h.pc_eq]
  cases code : inCode s.cfg s.pc.toNat 4 with
  | false =>
    rw [hs.step_of_error (invs.cache.fetchWord_of_not_inCode code),
      ht.step_of_error (invt.cache.fetchWord_of_not_inCode (same_bounds ▸ code))]
    exact h.raise (by rw [h.pc_eq])
  | true =>
    obtain ⟨s', hfs⟩ := invs.cache.fetchWord_of_inCode code
    obtain ⟨t', hft⟩ := invt.cache.fetchWord_of_inCode (same_bounds ▸ code)
    rw [← same_word] at hft
    have h' : SameArchitecture s' t' := h.fetchWord hfs hft
    obtain ⟨-, -, -, -, -, -, mem_s⟩ := fetchWord_keeps hfs
    obtain ⟨-, -, -, -, -, -, mem_t⟩ := fetchWord_keeps hft
    cases decoded : decode (codeWord s.mem s.pc.toNat) with
    | illegal cause =>
      rw [hs.step_of_illegal hfs decoded, ht.step_of_illegal hft decoded]
      exact h'.raise (by rw [h'.pc_eq])
    | instr i =>
      rw [hs.step_of_instr hfs decoded, ht.step_of_instr hft decoded]
      exact h'.exec (mem_s ▸ invs.memory.1) (mem_t ▸ invt.memory.1) i

/-- The checks before the fetch read the pc, the counters and the configuration but for the cache
size, so both machines take the same branch of R121. -/
theorem SameArchitecture.step (invs : Invariant s) (invt : Invariant t) :
    SameOutcome (step s) (step t) := by
  by_cases running : s.status = .running
  · have running' : t.status = .running := h.status_eq ▸ running
    by_cases at_stop : s.pc = s.cfg.stop
    · rw [step_of_stop running at_stop, step_of_stop running' (by rwa [← h.pc_eq, ← h.stop_eq])]
      exact h.stopped
    have not_stop : t.pc ≠ t.cfg.stop := by rwa [← h.pc_eq, ← h.stop_eq]
    cases limit : limitReached s with
    | true =>
      rw [step_of_limit running at_stop limit,
        step_of_limit running' not_stop (h.limitReached_eq ▸ limit)]
      exact h.raise (by rw [h.pc_eq, h.cnt_eq])
    | false =>
      cases haligned : aligned s.pc with
      | false =>
        rw [step_of_misaligned running at_stop limit haligned,
          step_of_misaligned running' not_stop (h.limitReached_eq ▸ limit) (h.pc_eq ▸ haligned)]
        exact h.raise (by rw [h.pc_eq])
      | true => exact h.step_of_fetches invs invt ⟨running, at_stop, limit, haligned⟩
  · rw [step_of_front_over (front_of_not_running running),
      step_of_front_over (front_of_not_running (h.status_eq ▸ running)), h.status_eq]
    rfl

end Pair

end Sys2Proof.Safety
end

section
/-! Data accesses one after the other (spec/20_memory.md R51, R62, R65): what a read after a write
answers, what a load after a store leaves in its register, and that no step changes a byte of the
code segment. -/

namespace Sys2Proof.Machine

open Sys2Proof.Safety

/-! ### A read after a write -/

/-- A write that succeeds was in the stack segment and not in the code segment (R58, R61). -/
theorem memWrite_eq_ok {s t : State} {a : Word} {n : Nat} {v : Word}
    (h : memWrite s a n v = .ok t) :
    inCode s.cfg a.toNat n = false ∧ inStack s.cfg a.toNat n = true ∧
      t = { s with mem := writeBytes s.mem a.toNat n v } := by
  unfold memWrite at h
  split_ifs at h with code stack
  cases h
  exact ⟨by simpa using code, stack, rfl⟩

/-- An address inside an access to the stack segment does not wrap: the segment ends below
`2 ^ 64` (R7). -/
theorem toNat_add_of_inStack {c : Cfg} (valid : cfgValid c = true) {a : Word} {n k : Nat}
    (stack : inStack c a.toNat n = true) (hk : k < n) :
    (a + BitVec.ofNat 64 k).toNat = a.toNat + k := by
  obtain ⟨-, -, -, -, fits, -⟩ := (cfgValid_iff c).1 valid
  rw [inStack_iff] at stack
  rw [BitVec.toNat_add, BitVec.toNat_ofNat]
  omega

/-- A narrow read inside a write sees the bytes of the value from `8k` up (R62). -/
theorem memRead_of_memWrite {s t : State} {a v : Word} {n m k : Nat}
    (valid : cfgValid s.cfg = true) (wf : Memory.wf s.mem) (hw : memWrite s a n v = .ok t)
    (pos : 0 < m) (inside : k + m ≤ n) :
    memRead t (a + BitVec.ofNat 64 k) m = .ok (v.extractLsb' (8 * k) (8 * m)).toNat := by
  obtain ⟨-, stack, rfl⟩ := memWrite_eq_ok hw
  have address : (a + BitVec.ofNat 64 k).toNat = a.toNat + k :=
    toNat_add_of_inStack valid stack (by omega)
  have in_stack : inStack s.cfg (a.toNat + k) m = true := by
    rw [inStack_iff] at stack ⊢
    omega
  rw [memRead_ok (by rw [address]; exact .inr in_stack), address, BitVec.extractLsb'_toNat,
    readBytes_of_bytes (k := k) (v := v) fun j hj => ?_]
  rw [readByte_writeBytes wf, if_pos (by omega)]
  congr 2
  omega

/-! ### A load after a store -/

/-- A store and then a load of the same width at the same address leave in the register the stored
bytes as the load extends them, and write nothing when it is register zero (R65). -/
theorem load_after_store {s : State} {n : Nat} {rs1 : RegIdx} {imm : BitVec 12}
    (wf : Memory.wf s.mem) (storable : Storable s (effectiveAddress rs1 imm s) n)
    (extend : Nat → Word) (rd rs2 : RegIdx) :
    ∃ t u, store n rs2 rs1 imm s = .next t ∧ load n extend rd rs1 imm t = .next u ∧
      ∀ r, getReg r u = written s rd (extend ((getReg rs2 s).toNat % 2 ^ (8 * n))) r := by
  obtain ⟨not_code, stack⟩ := storable
  refine ⟨_, _, store_ok not_code stack, load_ok (.inr stack), fun r => ?_⟩
  rw [getReg_complete, getReg_setReg, written]
  congr 1
  exact congrArg extend (readBytes_writeBytes wf _ n _)

theorem ofNat_toNat_mod (v : Word) (k : Nat) : BitVec.ofNat k (v.toNat % 2 ^ k) = v.setWidth k :=
  BitVec.eq_of_toNat_eq (by simp)

theorem extendByte_mod (v : Word) :
    extendByte (v.toNat % 2 ^ 8) = (v.setWidth 8).signExtend 64 := by
  rw [extendByte, ofNat_toNat_mod, sext]

theorem extendWord_mod (v : Word) :
    extendWord (v.toNat % 2 ^ 32) = (v.setWidth 32).signExtend 64 := by
  rw [extendWord, ofNat_toNat_mod, sext]

theorem extendDouble_mod (v : Word) : extendDouble (v.toNat % 2 ^ 64) = v := by
  rw [extendDouble, ofNat_toNat_mod, BitVec.setWidth_eq]

/-! ### The code segment -/

/-- `t` has the configuration and the code bytes of `s`. -/
def SameCode (s t : State) : Prop :=
  t.cfg = s.cfg ∧ ∀ a, InCodeSegment s.cfg a → readByte t.mem a = readByte s.mem a

theorem sameCode_of_mem_eq {s t : State} (cfg : t.cfg = s.cfg) (mem : t.mem = s.mem) :
    SameCode s t :=
  ⟨cfg, fun a _ => by rw [mem]⟩

/-- The segments are disjoint, so a store to the stack writes no code byte (R51, R58). -/
theorem sameCode_writeBytes {s : State} {a n : Nat} (valid : cfgValid s.cfg = true)
    (wf : Memory.wf s.mem) (stack : inStack s.cfg a n = true) (v : Word) :
    SameCode s { s with mem := writeBytes s.mem a n v } := by
  obtain ⟨-, -, -, -, -, disjoint, -⟩ := (cfgValid_iff s.cfg).1 valid
  refine ⟨rfl, fun p code => ?_⟩
  rw [InCodeSegment, inCode_iff] at code
  rw [inStack_iff] at stack
  rw [readByte_writeBytes wf, if_neg (by omega)]

theorem exec_sameCode {i : Instr} {s t : State} (valid : cfgValid s.cfg = true)
    (wf : Memory.wf s.mem) (h : exec i s = .next t) : SameCode s t := by
  obtain ⟨k, p, rd, v, eq, -⟩ | ⟨a, n, v, -, stack, -, eq⟩ | ⟨e, eq⟩ := exec_cases i s <;>
    cases eq.symm.trans h
  · exact sameCode_of_mem_eq (by simp) (by simp)
  · exact sameCode_writeBytes valid wf stack v
  · exact sameCode_of_mem_eq rfl rfl

theorem step_sameCode {s t : State} (valid : cfgValid s.cfg = true) (wf : Memory.wf s.mem)
    (h : step s = .next t) : SameCode s t := by
  obtain ⟨-, ⟨-, rfl⟩ | ⟨-, -, rfl⟩ | ⟨-, -, ⟨-, rfl⟩ | ⟨-, -, -, rfl⟩ |
    ⟨-, iw, s', hf, hdec⟩⟩⟩ := step_cases h
  · exact sameCode_of_mem_eq rfl rfl
  · exact sameCode_of_mem_eq rfl rfl
  · exact sameCode_of_mem_eq rfl rfl
  · exact sameCode_of_mem_eq rfl rfl
  · obtain ⟨-, -, -, cfg, -, -, mem⟩ := fetchWord_keeps hf
    obtain ⟨cause, -, rfl⟩ | ⟨i, -, hexec⟩ := hdec
    · exact sameCode_of_mem_eq cfg mem
    · have same : SameCode s' t := exec_sameCode (cfg ▸ valid) (mem ▸ wf) hexec
      rwa [SameCode, cfg, mem] at same

end Sys2Proof.Machine
end

section
/-! The arithmetic of the cache index (spec/20_memory.md R71): with `2 ^ m` lines it is the address
bits from 2 to `m + 1`. -/

namespace Sys2Proof.Machine

open Sys2Proof.Safety

theorem lineIndex_eq_div_mod (c : Cfg) (a : Word) :
    lineIndex c a = a.toNat / 4 % c.cacheLines := by
  rw [lineIndex, Nat.shiftRight_eq_div_pow]

/-- Bit `j` of the index is bit `j + 2` of the address, up to the `m` bits of the index. -/
theorem testBit_lineIndex {c : Cfg} {m : Nat} (size : c.cacheLines = 2 ^ m) (a : Word) (j : Nat) :
    (lineIndex c a).testBit j = (decide (j < m) && a.getLsbD (j + 2)) := by
  rw [lineIndex, size, Nat.testBit_mod_two_pow, Nat.testBit_shiftRight, Nat.add_comm,
    BitVec.testBit_toNat]

theorem lineIndex_eq_iff_bits {c : Cfg} {m : Nat} (size : c.cacheLines = 2 ^ m) (a b : Word) :
    lineIndex c a = lineIndex c b ↔ ∀ j, 2 ≤ j → j ≤ m + 1 → a.getLsbD j = b.getLsbD j := by
  constructor
  · intro same j lo hi
    obtain ⟨k, rfl⟩ := Nat.exists_eq_add_of_le' lo
    have bit := congrArg (Nat.testBit · k) same
    simpa only [testBit_lineIndex size, show k < m by omega, decide_true, Bool.true_and] using bit
  · intro same
    apply Nat.eq_of_testBit_eq
    intro j
    rw [testBit_lineIndex size, testBit_lineIndex size]
    by_cases hj : j < m
    · rw [same (j + 2) (by omega) (by omega)]
    · simp [hj]

/-- Word-aligned addresses share a line exactly when they differ by a multiple of `4 * C`. -/
theorem lineIndex_eq_iff_dvd {c : Cfg} {a b : Word} (ha : a.toNat % 4 = 0) (hb : b.toNat % 4 = 0) :
    lineIndex c a = lineIndex c b ↔
      (4 * c.cacheLines : Int) ∣ (a.toNat : Int) - (b.toNat : Int) := by
  have words :
      (a.toNat : Int) - b.toNat = 4 * ((a.toNat / 4 : Nat) - (b.toNat / 4 : Nat) : Int) := by
    omega
  rw [lineIndex_eq_div_mod, lineIndex_eq_div_mod, words, Int.mul_dvd_mul_iff_left (by decide),
    ← Nat.modEq_iff_dvd]
  exact eq_comm

theorem collide_iff_multiple {c : Cfg} {a b : Word} (pos : 0 < c.cacheLines)
    (ha : a.toNat % 4 = 0) (hb : b.toNat % 4 = 0) :
    Collide c a b ↔
      ∃ k : Int, k ≠ 0 ∧ (a.toNat : Int) - (b.toNat : Int) = k * (4 * c.cacheLines : Int) := by
  rw [Collide, lineIndex_eq_iff_dvd ha hb]
  constructor
  · rintro ⟨differ, k, hk⟩
    refine ⟨k, ?_, hk.trans (Int.mul_comm _ _)⟩
    rintro rfl
    exact differ (BitVec.eq_of_toNat_eq (by omega))
  · rintro ⟨k, nonzero, hk⟩
    refine ⟨?_, k, hk.trans (Int.mul_comm _ _)⟩
    rintro rfl
    rw [Int.sub_self, eq_comm, Int.mul_eq_zero] at hk
    omega

end Sys2Proof.Machine
end

section
/-! The statements of spec/20_memory.md settled from the lemmas above. -/

namespace Sys2Proof.Proofs.MemoryAndCache

open Sys2Proof.Machine Sys2Proof.Safety

/-- Settles O48: by coherence the two caches answer the same word or refuse alike, and no handler
reads a line, the cache size or the trace. -/
theorem cacheIsTransparent : Obligations.CacheIsTransparent :=
  fun _ _ invs invt h => h.step invs invt

/-- Settles O42: the only writes are stores to the stack segment, which the code segment does not
meet. -/
theorem codeSegmentIsConstant : Obligations.CodeSegmentIsConstant :=
  fun _ _ valid wf h => step_sameCode valid wf h

/-- Settles O43: a read inside the write sees the bytes of the value from its own offset up. -/
theorem narrowReadsSeeTheWideWrite : Obligations.NarrowReadsSeeTheWideWrite :=
  fun _ _ _ _ valid wf hw =>
    ⟨fun _ hk => memRead_of_memWrite valid wf hw (by omega) (by omega),
      memRead_of_memWrite (k := 4) valid wf hw (by omega) (by omega)⟩

/-- Settles O44: all eight bytes come back, and a doubleword needs no extension. -/
theorem loadReturnsTheStoredValue : Obligations.LoadReturnsTheStoredValue := by
  intro rd rs1 rs2 imm s wf storable rd_ne_zero
  obtain ⟨t, u, hstore, hload, regs⟩ := load_after_store wf storable extendDouble rd rs2
  refine ⟨t, u, hstore, hload, ?_⟩
  rw [regs, extendDouble_mod, written, if_pos ⟨rfl, rd_ne_zero⟩]

/-- Settles O58: the low part comes back and the load extends it by its own sign. -/
theorem narrowLoadReturnsTheStoredPart : Obligations.NarrowLoadReturnsTheStoredPart := by
  intro rd rs1 rs2 imm s wf
  rw [← extendByte_mod, ← extendWord_mod]
  exact ⟨fun storable => load_after_store wf storable extendByte rd rs2,
    fun storable => load_after_store wf storable extendWord rd rs2⟩

/-- Settles O45: the index is bits 2 to `m + 1` of the address, and a line answers to its whole tag
only. -/
theorem addressesCollideModuloTheCacheSize : Obligations.AddressesCollideModuloTheCacheSize := by
  refine ⟨fun c m a b size => ⟨?_, ?_, fun ha hb => ?_⟩, fun _ _ _ => lookup_eq_some_iff,
    fun _ _ iw bound => fillLine_getElem? iw bound⟩
  · rw [lineIndex_eq_div_mod, size]
  · rw [Collide, lineIndex_eq_iff_bits size]
  · exact collide_iff_multiple (size ▸ Nat.two_pow_pos m) ha hb

/-- Settles O46: the first fetch leaves its word in the indexed line. -/
theorem secondFetchHits : Obligations.SecondFetchHits := by
  intro a s t iw length pos hf
  exact ⟨_, fetchWord_of_hit (lookup_of_fetchWord (lineIndex_lt length pos a) hf), rfl, rfl⟩

/-- Settles O47: the line both addresses share holds the tag of the one fetched. -/
theorem collidingAddressMisses : Obligations.CollidingAddressMisses := by
  intro a b s t iw length pos collide hf
  obtain ⟨-, -, -, cfg, -⟩ := fetchWord_keeps hf
  exact lookup_eq_none_of_collide (cfg ▸ collide)
    (lookup_of_fetchWord (lineIndex_lt length pos a) hf)

/-- Settles O36: a coherent cache holds no address outside the code segment, so the fetch misses and
is refused. -/
theorem fetchOutsideCodeFailsTheRun : Obligations.FetchOutsideCodeFailsTheRun :=
  fun s coherent running not_stop below haligned outside =>
    have hs : Fetches s := ⟨running, not_stop, (limitReached_eq_false_iff s).2 below,
      (aligned_iff _).2 haligned⟩
    hs.step_of_error (coherent.fetchWord_of_not_inCode outside)

end Sys2Proof.Proofs.MemoryAndCache
end

section
/-! The decoder class by class (spec/30_encoding.md R101 to R108), and the fields of a word put back
together by the layout they were read from (R92 to R96). -/

namespace Sys2Proof

open Sys2Proof.Machine.BitField

/-! ### Selection by class -/

/-- What the decoder does with a word of the class (R102 to R108). -/
def Format.select : Format → InstrWord → Decoded
  | .r => decodeR
  | .r64 => decodeR64
  | .iArith => decodeIArith
  | .iLoad => decodeILoad
  | .s => decodeS
  | .b => decodeB
  | .j => decodeJ
  | .iJalr => decodeIJalr

theorem decode_of_classify {iw : InstrWord} {f : Format} (h : classify iw = some f) :
    decode iw = f.select iw := by
  rw [decode, h]
  cases f <;> rfl

theorem decode_of_classify_none {iw : InstrWord} (h : classify iw = none) :
    decode iw = .illegal (.opcode (fieldOpcode iw)) := by
  rw [decode, h]

theorem decodeIArith_of_srli {iw : InstrWord} (h3 : fieldFunct3 iw = 0b101#3) :
    decodeIArith iw =
      .instr (.srli (fieldRd iw) (fieldRs1 iw) (fieldRs2 iw) (fieldFunct7 iw)) := by
  simp only [decodeIArith, h3]
  rfl

theorem decode_of_srli {iw : InstrWord} (hop : fieldOpcode iw = 0b0010011#7)
    (h3 : fieldFunct3 iw = 0b101#3) :
    decode iw = .instr (.srli (fieldRd iw) (fieldRs1 iw) (fieldRs2 iw) (fieldFunct7 iw)) :=
  (decode_of_classify (classify_of_opcode (f := .iArith) hop)).trans (decodeIArith_of_srli h3)

theorem decode_of_jalr {iw : InstrWord} (hop : fieldOpcode iw = 0b1100111#7) :
    decode iw = .instr (.jalr (fieldRd iw) (fieldFunct3 iw) (fieldRs1 iw) (immI iw)) :=
  decode_of_classify (classify_of_opcode (f := .iJalr) hop)

/-! ### The pieces of an assembled immediate are the fields it was assembled from -/

theorem slices_immS (iw : InstrWord) :
    (immS iw).extractLsb' 5 7 = fieldFunct7 iw ∧ (immS iw).extractLsb' 0 5 = fieldRd iw :=
  ⟨BitVec.extractLsb'_append_eq_left, BitVec.extractLsb'_append_eq_right⟩

theorem slices_immB (iw : InstrWord) :
    (immB iw).extractLsb' 12 1 = field iw 31 1 ∧ (immB iw).extractLsb' 11 1 = field iw 7 1 ∧
      (immB iw).extractLsb' 5 6 = field iw 25 6 ∧ (immB iw).extractLsb' 1 4 = field iw 8 4 := by
  have := (field iw 31 1).isLt
  have := (field iw 7 1).isLt
  have := (field iw 25 6).isLt
  have := (field iw 8 4).isLt
  refine ⟨?_, ?_, ?_, ?_⟩ <;>
    (apply BitVec.eq_of_toNat_eq; rw [toNat_slice, toNat_immB]; omega)

theorem slices_immJ (iw : InstrWord) :
    (immJ iw).extractLsb' 20 1 = field iw 31 1 ∧ (immJ iw).extractLsb' 12 8 = field iw 12 8 ∧
      (immJ iw).extractLsb' 11 1 = field iw 20 1 ∧ (immJ iw).extractLsb' 1 10 = field iw 21 10 := by
  have := (field iw 31 1).isLt
  have := (field iw 12 8).isLt
  have := (field iw 20 1).isLt
  have := (field iw 21 10).isLt
  refine ⟨?_, ?_, ?_, ?_⟩ <;>
    (apply BitVec.eq_of_toNat_eq; rw [toNat_slice, toNat_immJ]; omega)

/-! ### Each layout puts a word together from its own fields -/

/-- A field and the field just below it are one wider field. -/
theorem field_append_field (iw : InstrWord) {lo hi m n : Nat} (adjacent : hi = lo + n) :
    field iw hi m ++ field iw lo n = field iw lo (m + n) :=
  BitVec.extractLsb'_append_extractLsb'_eq_extractLsb' adjacent

/-- The field of all 32 bits is the word. -/
theorem field_all (iw : InstrWord) : field iw 0 32 = iw :=
  BitVec.extractLsb'_eq_self

section
variable {iw : InstrWord} {op : BitVec 7} {f3 : BitVec 3} {f7 : BitVec 7}

theorem rWord_of_fields (hop : fieldOpcode iw = op) (h3 : fieldFunct3 iw = f3)
    (h7 : fieldFunct7 iw = f7) :
    rWord f7 (fieldRs2 iw) (fieldRs1 iw) f3 (fieldRd iw) op = iw := by
  subst hop h3 h7
  unfold rWord fieldFunct7 fieldRs2 fieldRs1 fieldFunct3 fieldRd fieldOpcode
  iterate 5 rw [field_append_field iw (by rfl)]
  exact field_all iw

theorem iWord_of_fields (hop : fieldOpcode iw = op) (h3 : fieldFunct3 iw = f3) :
    iWord (immI iw) (fieldRs1 iw) f3 (fieldRd iw) op = iw := by
  subst hop h3
  unfold iWord immI fieldRs1 fieldFunct3 fieldRd fieldOpcode
  iterate 4 rw [field_append_field iw (by rfl)]
  exact field_all iw

theorem sWord_of_fields (hop : fieldOpcode iw = op) (h3 : fieldFunct3 iw = f3) :
    sWord (immS iw) (fieldRs2 iw) (fieldRs1 iw) f3 op = iw := by
  obtain ⟨high, low⟩ := slices_immS iw
  rw [sWord_eq, high, low]
  exact rWord_of_fields hop h3 rfl

theorem bWord_of_fields (hop : fieldOpcode iw = op) (h3 : fieldFunct3 iw = f3) :
    bWord (immB iw) (fieldRs2 iw) (fieldRs1 iw) f3 op = iw := by
  obtain ⟨bit12, bit11, bits10_5, bits4_1⟩ := slices_immB iw
  rw [bWord_eq, bit12, bits10_5, bits4_1, bit11, field_append_field iw (by rfl),
    field_append_field iw (by rfl)]
  exact rWord_of_fields hop h3 rfl

theorem jWord_of_fields (hop : fieldOpcode iw = op) :
    jWord (immJ iw) (fieldRd iw) op = iw := by
  obtain ⟨bit20, bits19_12, bit11, bits10_1⟩ := slices_immJ iw
  subst hop
  rw [jWord, bit20, bits10_1, bit11, bits19_12, fieldRd, fieldOpcode]
  iterate 5 rw [field_append_field iw (by rfl)]
  exact field_all iw

end

end Sys2Proof
end

section
/-! Encoding and decoding undo each other (spec/30_encoding.md R92 to R112): the opcode of the word
selects the class on the way back, and the class's layout returns every operand. -/

namespace Sys2Proof

/-! ### From an instruction to its word and back -/

/-- The encoder gives every instruction the opcode of its class (R101). -/
theorem fieldOpcode_encode (i : Instr) : fieldOpcode (encode i) = i.format.opcode := by
  cases i with
  | add | sub | mul | sll | srl | and | sllw | sraw | srli => exact fieldOpcode_rWord ..
  | addi | lb | lw | ld | jalr => exact fieldOpcode_iWord ..
  | sb | sw | sd => exact fieldOpcode_sWord ..
  | beq | bne | blt | bge => exact fieldOpcode_bWord ..
  | jal => exact fieldOpcode_jWord ..

/-- Within its class the word of an instruction selects that instruction: funct3 and funct7 are the
values of its row, and the operands come back. Only a B or J offset needs to be well formed. -/
theorem select_encode {i : Instr} (h : i.wellFormed = true) :
    i.format.select (encode i) = .instr i := by
  cases i with
  | add | sub | mul | sll | srl | and => simp [encode, Instr.format, Format.select, decodeR]
  | sllw | sraw => simp [encode, Instr.format, Format.select, decodeR64]
  | addi => simp [encode, Instr.format, Format.select, decodeIArith]
  | srli => exact (decodeIArith_of_srli (fieldFunct3_rWord ..)).trans (by simp)
  | lb | lw | ld => simp [encode, Instr.format, Format.select, decodeILoad]
  | sb | sw | sd => simp [encode, Instr.format, Format.select, decodeS]
  | beq | bne | blt | bge =>
    simp [encode, Instr.format, Format.select, decodeB, immB_bWord _ _ _ _ h]
  | jal => simp [encode, Instr.format, Format.select, decodeJ, immJ_jWord _ _ h]
  | jalr => simp [encode, Instr.format, Format.select, decodeIJalr]

theorem decode_encode {i : Instr} (h : i.wellFormed = true) : decode (encode i) = .instr i :=
  (decode_of_classify (classify_of_opcode (fieldOpcode_encode i))).trans (select_encode h)

/-! ### From a word to its instruction and back -/

/-- The branch of a class that answers an instruction has tested funct3, and funct7 where the class
examines it, for the values the encoder writes; the layout puts the rest back. -/
theorem encode_of_select {f : Format} {iw : InstrWord} {i : Instr}
    (hop : fieldOpcode iw = f.opcode) (h : f.select iw = .instr i) : encode i = iw := by
  cases f with
  | r =>
    simp only [Format.select, decodeR] at h
    split_ifs at h <;> cases h <;> exact rWord_of_fields hop (by assumption) (by assumption)
  | r64 =>
    simp only [Format.select, decodeR64] at h
    split_ifs at h <;> cases h <;> exact rWord_of_fields hop (by assumption) (by assumption)
  | iArith =>
    simp only [Format.select, decodeIArith] at h
    split_ifs at h with addi srli <;> cases h
    · exact iWord_of_fields hop addi
    · exact rWord_of_fields hop srli rfl
  | iLoad =>
    simp only [Format.select, decodeILoad] at h
    split_ifs at h <;> cases h <;> exact iWord_of_fields hop (by assumption)
  | s =>
    simp only [Format.select, decodeS] at h
    split_ifs at h <;> cases h <;> exact sWord_of_fields hop (by assumption)
  | b =>
    simp only [Format.select, decodeB] at h
    split_ifs at h <;> cases h <;> exact bWord_of_fields hop (by assumption)
  | j =>
    cases h
    exact jWord_of_fields hop
  | iJalr =>
    cases h
    exact iWord_of_fields hop rfl

theorem encode_of_decode {iw : InstrWord} {i : Instr} (h : decode iw = .instr i) :
    encode i = iw := by
  cases hf : classify iw with
  | some f => exact encode_of_select (opcode_of_classify hf) ((decode_of_classify hf).symm.trans h)
  | none => cases (decode_of_classify_none hf).symm.trans h

end Sys2Proof
end

section
/-! The field a refused word is refused under (spec/30_encoding.md R109, R110): the decoder's nested
tests and the tables of its classes name the same one. -/

namespace Sys2Proof

open Sys2Proof.Safety

/-- The field a refusal names; an instruction has none. -/
def Decoded.cause : Decoded → Option DecodeCause
  | .instr _ => none
  | .illegal cause => some cause

theorem Decoded.eq_illegal_of_cause {d : Decoded} {cause : DecodeCause}
    (h : d.cause = some cause) : d = .illegal cause := by
  cases d <;> cases h
  rfl

theorem Decoded.exists_instr_of_cause {d : Decoded} (h : d.cause = none) :
    ∃ i, d = .instr i := by
  cases d with
  | instr i => exact ⟨i, rfl⟩
  | illegal => cases h

/-- The table of opcodes and the decoder's chain of comparisons find the same class (R101). -/
theorem classOf_fieldOpcode (iw : InstrWord) : classOf (fieldOpcode iw) = classify iw := by
  cases found : classOf (fieldOpcode iw) with
  | some f =>
    have opcode : f.opcode = fieldOpcode iw := by simpa using List.find?_some found
    exact (classify_of_opcode opcode.symm).symm
  | none =>
    cases classified : classify iw with
    | none => rfl
    | some f =>
      rw [opcode_of_classify classified] at found
      cases f <;> cases found

/-- J and I-jalr refuse no funct3 (R108). -/
theorem mem_all_funct3 (f3 : BitVec 3) : f3 ∈ [0, 1, 2, 3, 4, 5, 6, 7] := by
  revert f3
  decide

/-- Within a class, the tests a branch of the decoder has passed or failed say whether funct3 is in
the table of the class, and whether the pair with funct7 is. -/
theorem cause_select {f : Format} {iw : InstrWord} (h : classify iw = some f) :
    (f.select iw).cause = offendingField iw := by
  have table : classOf (fieldOpcode iw) = some f := (classOf_fieldOpcode iw).trans h
  simp only [offendingField, table]
  cases f with
  | r | r64 | iArith | iLoad | s | b =>
    simp only [Format.select, decodeR, decodeR64, decodeIArith, decodeILoad, decodeS, decodeB,
      legalFunct3, legalPairs]
    split_ifs <;> simp_all [Decoded.cause]
  | j | iJalr =>
    simp only [legalFunct3, mem_all_funct3]
    rfl

theorem cause_decode (iw : InstrWord) : (decode iw).cause = offendingField iw := by
  cases h : classify iw with
  | some f => rw [decode_of_classify h, cause_select h]
  | none =>
    rw [decode_of_classify_none h, offendingField, classOf_fieldOpcode, h]
    rfl

end Sys2Proof
end

section
/-! The immediates as numbers (spec/30_encoding.md R97 to R100): the assembled bits, their extension
at the sign index, and the range of each. -/

namespace Sys2Proof

open Sys2Proof.Machine Sys2Proof.Machine.BitField

/-! ### The assembled bits -/

theorem toNat_field_shiftRight (iw : InstrWord) (start n : Nat) :
    (iw.toNat >>> start) % 2 ^ n = (field iw start n).toNat := by
  rw [field, BitVec.extractLsb'_toNat]

theorem toNat_immS_or (iw : InstrWord) :
    (immS iw).toNat = (field iw 25 7).toNat <<< 5 ||| (field iw 7 5).toNat :=
  BitVec.toNat_append ..

theorem toNat_immB_or (iw : InstrWord) :
    (immB iw).toNat = (field iw 31 1).toNat <<< 12 ||| (field iw 7 1).toNat <<< 11 |||
      (field iw 25 6).toNat <<< 5 ||| (field iw 8 4).toNat <<< 1 := by
  simp only [immB, BitVec.toNat_append, Nat.shiftLeft_or_distrib, ← Nat.shiftLeft_add]
  exact Nat.or_zero _

theorem toNat_immJ_or (iw : InstrWord) :
    (immJ iw).toNat = (field iw 31 1).toNat <<< 20 ||| (field iw 12 8).toNat <<< 12 |||
      (field iw 20 1).toNat <<< 11 ||| (field iw 21 10).toNat <<< 1 := by
  simp only [immJ, BitVec.toNat_append, Nat.shiftLeft_or_distrib, ← Nat.shiftLeft_add]
  exact Nat.or_zero _

/-! ### Sign extension -/

/-- Extending the bits of an immediate at the index of its own top bit is the extension of the
immediate at its own width. -/
theorem signExtend_toNat {k : Nat} (hk : k ≤ 63) (imm : BitVec (k + 1)) :
    signExtend (BitVec.ofNat 64 imm.toNat) k = some (sext imm) := by
  have inside : k < 64 := by omega
  rw [signExtend_of_le _ hk]
  congr 1
  apply BitVec.eq_of_getLsbD_eq
  intro j hj
  rw [getLsbD_signExtended _ hk hj, sext, BitVec.getLsbD_signExtend, BitVec.msb_eq_getLsbD_last]
  by_cases below : j ≤ k <;> simp [below, hj, inside]

/-! ### Ranges -/

theorem sext_range {k : Nat} (hk : k ≤ 63) (v : BitVec (k + 1)) :
    -2 ^ k ≤ (sext v).toInt ∧ (sext v).toInt ≤ 2 ^ k - 1 := by
  rw [sext, BitVec.toInt_signExtend_of_le (by omega)]
  exact ⟨v.le_toInt, Int.le_sub_one_of_lt v.toInt_lt⟩

theorem sext_even {k : Nat} (hk : k ≤ 63) {v : BitVec (k + 1)} (even : (!v.getLsbD 0) = true) :
    (sext v).toInt % 2 = 0 := by
  have := even_of_bit_zero even
  rw [sext, BitVec.toInt_signExtend_of_le (by omega), BitVec.toInt_eq_toNat_cond]
  push_cast [Nat.pow_succ]
  split_ifs <;> omega

/-- An even immediate stays one further below the upper bound. -/
theorem sext_range_of_even {k : Nat} (hk : k + 1 ≤ 63) {v : BitVec (k + 2)}
    (bit : (!v.getLsbD 0) = true) :
    -2 ^ (k + 1) ≤ (sext v).toInt ∧ (sext v).toInt ≤ 2 ^ (k + 1) - 2 ∧ (sext v).toInt % 2 = 0 := by
  obtain ⟨low, high⟩ := sext_range hk v
  have even := sext_even hk bit
  exact ⟨low, by omega, even⟩

end Sys2Proof
end

section
/-! The bits a class does not examine (spec/30_encoding.md R112): words that agree in the other bits
have the other fields in common, and the meanings take no notice of the rest. -/

namespace Sys2Proof

open Sys2Proof.Machine Sys2Proof.Machine.BitField

/-- A field inside a slice of a word. -/
theorem extractLsb'_slice (v : InstrWord) {lo len start count : Nat}
    (inside : start + count ≤ len) :
    (v.extractLsb' lo len).extractLsb' start count = field v (lo + start) count := by
  ext j hj
  have hlen : start + j < len := by omega
  simp only [field, BitVec.getElem_extractLsb', BitVec.getLsbD_extractLsb', hlen, decide_true,
    Bool.true_and, Nat.add_assoc]

theorem field_eq_of_slice_eq {v w : InstrWord} {lo len : Nat}
    (same : v.extractLsb' lo len = w.extractLsb' lo len) {start count : Nat}
    (inside : start + count ≤ len) : field v (lo + start) count = field w (lo + start) count := by
  rw [← extractLsb'_slice v inside, same, extractLsb'_slice w inside]

theorem exec_srli_ignored (rd rs1 : RegIdx) (shamt : BitVec 5) (a b : BitVec 7) (s : State) :
    exec (.srli rd rs1 shamt a) s = exec (.srli rd rs1 shamt b) s := rfl

theorem exec_jalr_ignored (rd rd' : RegIdx) (f3 f3' : BitVec 3) (rs1 : RegIdx) (imm : BitVec 12)
    (s : State) : exec (.jalr rd f3 rs1 imm) s = exec (.jalr rd' f3' rs1 imm) s := rfl

end Sys2Proof
end

section
/-! The statements of spec/30_encoding.md settled from the lemmas above. -/

namespace Sys2Proof.Proofs.Encoding

open Sys2Proof.Machine

/-- Settles O1: the word classifies as the instruction's class, and the selection within the class
reads every operand back. -/
theorem decodeOfEncode : Obligations.DecodeOfEncode :=
  fun _ h => decode_encode h

/-- Settles O2: the answered instruction holds every field of the word, its ignored ones too. -/
theorem encodeOfDecode : Obligations.EncodeOfDecode :=
  fun _ _ h => ⟨decode_wellFormed h, encode_of_decode h⟩

/-- Settles O4: the decoder refuses a word under exactly the field the tables name. -/
theorem illegalWordsNameTheirField : Obligations.IllegalWordsNameTheirField :=
  fun iw => ⟨fun _ h => Decoded.eq_illegal_of_cause ((cause_decode iw).trans h),
    fun h => Decoded.exists_instr_of_cause ((cause_decode iw).trans h)⟩

/-- Settles O5: each immediate is its assembled bits at a width of one more than the sign index; an
offset of 2 sets bit 8 of a B word and bit 21 of a J word. -/
theorem immediatesAreAssembled : Obligations.ImmediatesAreAssembled := by
  refine ⟨fun iw => ?_, ⟨0x00000100#32, by decide⟩, 0x00200000#32, by decide⟩
  simp only [toNat_field_shiftRight]
  refine ⟨signExtend_toNat (by decide) (immI iw), ?_, ?_, ?_, sext_range (by decide) (immI iw),
    sext_range (by decide) (immS iw), sext_range_of_even (by decide) (immB_even iw),
    sext_range_of_even (by decide) (immJ_even iw)⟩
  · rw [← toNat_immS_or]
    exact signExtend_toNat (by decide) (immS iw)
  · rw [← toNat_immB_or]
    exact signExtend_toNat (by decide) (immB iw)
  · rw [← toNat_immJ_or]
    exact signExtend_toNat (by decide) (immJ iw)

/-- Settles O57: the two words decode to one instruction up to the operands its meaning ignores:
iw[31:25] of srli, rd and funct3 of jalr. -/
theorem ignoredBitsHaveNoEffect : Obligations.IgnoredBitsHaveNoEffect := by
  rintro v w (⟨hop, h3, same⟩ | ⟨hv, hw, same⟩)
  · have opcode : fieldOpcode v = fieldOpcode w :=
      field_eq_of_slice_eq same (start := 0) (by decide)
    have rd : fieldRd v = fieldRd w := field_eq_of_slice_eq same (start := 7) (by decide)
    have funct3 : fieldFunct3 v = fieldFunct3 w :=
      field_eq_of_slice_eq same (start := 12) (by decide)
    have rs1 : fieldRs1 v = fieldRs1 w := field_eq_of_slice_eq same (start := 15) (by decide)
    have shamt : fieldRs2 v = fieldRs2 w := field_eq_of_slice_eq same (start := 20) (by decide)
    refine ⟨_, _, decode_of_srli hop h3, decode_of_srli (opcode ▸ hop) (funct3 ▸ h3), fun s => ?_⟩
    rw [rd, rs1, shamt, exec_srli_ignored]
  · have rs1 : fieldRs1 v = fieldRs1 w := field_eq_of_slice_eq same (start := 0) (by decide)
    have imm : immI v = immI w := field_eq_of_slice_eq same (start := 5) (by decide)
    refine ⟨_, _, decode_of_jalr hv, decode_of_jalr hw, fun s => ?_⟩
    rw [rs1, imm, exec_jalr_ignored]

/-- Settles O3: by running the decoder on the eight words. -/
theorem sampleWordsDecode : Obligations.SampleWordsDecode := by
  unfold Obligations.SampleWordsDecode
  decide

end Sys2Proof.Proofs.Encoding
end

section
/-! What a step from Running leads to (spec/40_fetch_and_step.md R121, R207): it always answers a
next state, and that state is Stopped at STOP, Failed by an error raised before or after the fetch, or
Running after one executed instruction. -/

namespace Sys2Proof.Machine

open Sys2Proof.Safety

/-! ### A next state -/

/-- No instruction ends in a fault or a refusal. -/
theorem exec_next (i : Instr) (s : State) : ∃ t, exec i s = .next t := by
  obtain ⟨_, _, _, _, eq, -⟩ | ⟨_, _, _, -, -, -, eq⟩ | ⟨_, eq⟩ := exec_cases i s <;>
    exact ⟨_, eq⟩

/-- No word ends in a fault or a refusal, nor does a fetch that is refused. -/
theorem Fetches.step_next {s : State} (h : Fetches s) : ∃ t, step s = .next t := by
  cases hf : fetchWord s.pc s with
  | error e => exact ⟨_, h.step_of_error hf⟩
  | word iw u =>
    cases hd : decode iw with
    | illegal cause => exact ⟨_, h.step_of_illegal hf hd⟩
    | instr i =>
      rw [h.step_of_instr hf hd]
      exact exec_next i u

/-- The checks of R121 in their order, then the fetch. -/
theorem step_next_of_running {s : State} (running : s.status = .running) :
    ∃ t, step s = .next t := by
  by_cases at_stop : s.pc = s.cfg.stop
  · exact ⟨_, step_of_stop running at_stop⟩
  cases limit : limitReached s with
  | true => exact ⟨_, step_of_limit running at_stop limit⟩
  | false =>
    cases pc_aligned : aligned s.pc with
    | false => exact ⟨_, step_of_misaligned running at_stop limit pc_aligned⟩
    | true => exact Fetches.step_next ⟨running, at_stop, limit, pc_aligned⟩

/-! ### How a step ends -/

/-- `u` is the state in which a step from `s` can raise an error: `s` itself, or the state after its
fetch (R207). -/
def ReachesRaise (s u : State) : Prop := u = s ∨ ∃ iw, fetchWord s.pc s = .word iw u

/-- Up to the execute stage a step changes cache lines and trace only. -/
theorem ReachesRaise.keeps {s u : State} (h : ReachesRaise s u) :
    u.regs = s.regs ∧ u.pc = s.pc ∧ u.cnt = s.cnt ∧ u.cfg = s.cfg ∧ u.status = s.status ∧
      u.err = s.err ∧ u.mem = s.mem := by
  obtain rfl | ⟨iw, hf⟩ := h
  · exact ⟨rfl, rfl, rfl, rfl, rfl, rfl, rfl⟩
  · exact fetchWord_keeps hf

/-- An instruction leaves the status and the configuration alone, or raises an error. -/
theorem exec_completes_or_raises {i : Instr} {s t : State} (h : exec i s = .next t) :
    (t.status = s.status ∧ t.cfg = s.cfg) ∨ ∃ e, t = raise e s := by
  obtain ⟨_, _, _, _, eq, -⟩ | ⟨_, _, _, -, -, -, eq⟩ | ⟨e, eq⟩ := exec_cases i s <;>
    cases eq.symm.trans h
  · exact .inl (by simp)
  · exact .inl ⟨rfl, rfl⟩
  · exact .inr ⟨e, rfl⟩

/-- The three ways a step ends: Stopped at STOP, Failed by an error, or Running after one completed
instruction (R31, R121). -/
theorem step_ends {s t : State} (h : step s = .next t) :
    (s.pc = s.cfg.stop ∧ t = { s with status := .stopped }) ∨
      (s.pc ≠ s.cfg.stop ∧ ∃ e u, ReachesRaise s u ∧ t = raise e u) ∨
      (Fetches s ∧ t.status = .running ∧ t.cfg = s.cfg ∧
        ∃ iw u i, fetchWord s.pc s = .word iw u ∧ decode iw = .instr i ∧ exec i u = .next t) := by
  obtain ⟨running, stopped | ⟨not_stop, -, eq⟩ | ⟨not_stop, below, ⟨-, eq⟩ | ⟨-, -, -, eq⟩ |
    ⟨pc_aligned, iw, u, hf, ⟨_, -, eq⟩ | ⟨i, hd, hexec⟩⟩⟩⟩ := step_cases h
  · exact .inl stopped
  · exact .inr (.inl ⟨not_stop, _, s, .inl rfl, eq⟩)
  · exact .inr (.inl ⟨not_stop, _, s, .inl rfl, eq⟩)
  · exact .inr (.inl ⟨not_stop, _, s, .inl rfl, eq⟩)
  · exact .inr (.inl ⟨not_stop, _, u, .inr ⟨iw, hf⟩, eq⟩)
  · obtain ⟨-, -, -, cfg, status, -, -⟩ := fetchWord_keeps hf
    obtain ⟨same_status, same_cfg⟩ | ⟨e, eq⟩ := exec_completes_or_raises hexec
    · exact .inr (.inr ⟨⟨running, not_stop, below, pc_aligned⟩,
        same_status.trans (status.trans running), same_cfg.trans cfg, iw, u, i, hf, hd, hexec⟩)
    · exact .inr (.inl ⟨not_stop, e, u, .inr ⟨iw, hf⟩, eq⟩)

/-- A step ends Stopped at STOP only. -/
theorem status_step_eq_stopped_iff {s t : State} (h : step s = .next t) :
    t.status = .stopped ↔ s.pc = s.cfg.stop := by
  obtain ⟨at_stop, rfl⟩ | ⟨not_stop, e, u, -, rfl⟩ | ⟨⟨-, not_stop, -, -⟩, running, -⟩ :=
    step_ends h
  · simp [at_stop]
  · simp [not_stop]
  · simp [not_stop, running]

/-- A step that fails the run raised the error, in the state it started in or after its fetch. -/
theorem raises_of_step_failed {s t : State} (h : step s = .next t) (failed : t.status = .failed) :
    ∃ e u, ReachesRaise s u ∧ t = raise e u := by
  obtain ⟨-, rfl⟩ | ⟨-, raised⟩ | ⟨-, running, -⟩ := step_ends h
  · cases failed
  · exact raised
  · simp [running] at failed

theorem CountedOne.instructions_eq {c d : Counters} (h : CountedOne c d) :
    d.instructions = c.instructions + 1 := by
  obtain rfl | rfl | rfl | rfl | rfl | rfl := h <;> rfl

/-- A step that goes on passed the checks, kept the configuration and completed one instruction. -/
theorem step_of_still_running {s t : State} (h : step s = .next t) (running : t.status = .running) :
    Fetches s ∧ t.cfg = s.cfg ∧ t.cnt.instructions = s.cnt.instructions + 1 := by
  obtain ⟨-, rfl⟩ | ⟨-, e, u, -, rfl⟩ | ⟨fetches, -, cfg, -⟩ := step_ends h
  · cases running
  · cases running
  · exact ⟨fetches, cfg, ((step_countsOnce h).1 running).instructions_eq⟩

/-! ### Where the pc goes -/

/-- The pc of `t` is that of `s` or follows it, or a taken branch was counted. -/
def FlowsOrBranches (s t : State) : Prop :=
  t.pc = s.pc ∨ t.pc = nextPc s ∨ t.cnt = oneBranch true s.cnt

theorem writeResult_flows {rd : RegIdx} {v : Word} {s t : State}
    (h : writeResult rd v s = .next t) : FlowsOrBranches s t := by
  cases h
  exact .inr (.inl rfl)

theorem load_flows {n : Nat} {extend : Nat → Word} {rd rs1 : RegIdx} {imm : BitVec 12}
    {s t : State} (h : load n extend rd rs1 imm s = .next t) : FlowsOrBranches s t := by
  rw [load] at h
  split at h <;> cases h
  · exact .inr (.inl rfl)
  · exact .inl rfl

theorem store_flows {n : Nat} {rs2 rs1 : RegIdx} {imm : BitVec 12} {s t : State}
    (h : store n rs2 rs1 imm s = .next t) : FlowsOrBranches s t := by
  obtain ⟨-, -, ok⟩ | ⟨reason, err⟩ := store_cases n rs2 rs1 imm s
  · cases ok.symm.trans h
    exact .inr (.inl rfl)
  · cases err.symm.trans h
    exact .inl rfl

theorem branch_flows {taken : Bool} {offset : BitVec 13} {s t : State}
    (h : branch taken offset s = .next t) : FlowsOrBranches s t := by
  cases taken <;> cases h
  · exact .inr (.inl rfl)
  · exact .inr (.inr rfl)

/-- Besides the two jumps, only a taken branch leaves the sequential flow (R123, R127). -/
theorem exec_jumps_or_flows {i : Instr} {s t : State} (h : exec i s = .next t) :
    jumps i = true ∨ FlowsOrBranches s t := by
  cases i with
  | add | sub | mul | sll | srl | and | sllw | sraw | addi | srli =>
    exact .inr (writeResult_flows h)
  | lb | lw | ld => exact .inr (load_flows h)
  | sb | sw | sd => exact .inr (store_flows h)
  | beq | bne | blt | bge => exact .inr (branch_flows h)
  | jal | jalr => exact .inl rfl

end Sys2Proof.Machine
end

section
/-! The state after the fetch of a step that reaches its fetch (spec/20_memory.md R72 to R74), and
the step from there. -/

namespace Sys2Proof.Safety

open Sys2Proof.Machine

theorem ReadyToFetch.fetches {s : State} (h : ReadyToFetch s) : Fetches s where
  running := h.running
  not_stop := h.not_stop
  below_limit := (limitReached_eq_false_iff s).2 h.below_limit
  pc_aligned := (aligned_iff _).2 h.aligned

/-- The state a fetch at the pc leaves is `fetched s`: the event, and on a miss the filled line. -/
theorem eq_fetched_of_fetchWord {s u : State} {iw : InstrWord}
    (hf : fetchWord s.pc s = .word iw u) : u = fetched s := by
  obtain ⟨found, rfl⟩ | ⟨missed, -, rfl, rfl⟩ := fetchWord_word hf
  · rw [fetched, found]
    rfl
  · rw [fetched, missed]
    rfl

/-- With a coherent cache the fetch of a step answers the code word at the pc (R77). -/
theorem ReadyToFetch.fetchWord_eq {s : State} (h : ReadyToFetch s) (coherent : CacheCoherent s) :
    fetchWord s.pc s = .word (codeWord s.mem s.pc.toNat) (fetched s) := by
  obtain ⟨u, hf⟩ := coherent.fetchWord_of_inCode h.inside
  rw [hf, eq_fetched_of_fetchWord hf]

theorem ReadyToFetch.step_of_instr {s : State} {i : Instr} (h : ReadyToFetch s)
    (coherent : CacheCoherent s) (hd : decode (codeWord s.mem s.pc.toNat) = .instr i) :
    step s = exec i (fetched s) :=
  h.fetches.step_of_instr (h.fetchWord_eq coherent) hd

end Sys2Proof.Safety
end

section
/-! The host's transactions on a machine (spec/40_fetch_and_step.md R129, R132, R133), and runs step
by step: the bound the step limit sets (R122, R124) and the return through `x[1]` (R123). -/

namespace Sys2Proof.Machine

open Sys2Proof.Safety

/-! ### The result interface -/

theorem result_of_running {s : State} (h : s.status = .running) : result s = none := by
  rw [result, h]

theorem result_of_stopped {s : State} (h : s.status = .stopped) :
    result s = some ⟨.stopped, some (getReg 10#5 s), s.cnt, none⟩ := by
  rw [result, h]

theorem result_of_failed {s : State} (h : s.status = .failed) :
    result s = some ⟨.failed, none, s.cnt, s.err⟩ := by
  rw [result, h]

/-! ### Launching again -/

theorem relaunch_of_running {s : State} (p : LaunchArgs) (h : s.status = .running) :
    relaunch s p = .refused .launchWhileRunning := by
  rw [relaunch, h]

theorem relaunch_of_not_running {s : State} (p : LaunchArgs) (h : s.status ≠ .running) :
    relaunch s p = launch p := by
  unfold relaunch
  cases hs : s.status with
  | running => exact absurd hs h
  | stopped => rfl
  | failed => rfl

/-! ### Runs -/

theorem run_succ_of_step {M : Host.Core} {s t : M.State} (h : M.step s = .next t) (k : Nat) :
    M.run (k + 1) s = M.run k t := by
  rw [Host.Core.run, h]

theorem runEndsWithin_of_ended {s : State} (ended : s.status ≠ .running) (m : Nat) :
    RunEndsWithin m s :=
  ⟨0, s, Nat.zero_le m, rfl, ended⟩

theorem runEndsWithin_of_step {s t : State} {m : Nat} (h : step s = .next t)
    (ends : RunEndsWithin m t) : RunEndsWithin (m + 1) s := by
  obtain ⟨k, u, le, run, ended⟩ := ends
  exact ⟨k + 1, u, Nat.succ_le_succ le, (run_succ_of_step h k).trans run, ended⟩

/-- Each step that goes on completes one of the instructions left, and with none left the step limit
ends the run (R124). -/
theorem runEndsWithin_of_maxSteps {n : Nat} (s : State) (running : s.status = .running)
    (limit : s.cfg.maxSteps = some n) : RunEndsWithin (n - s.cnt.instructions + 1) s := by
  obtain ⟨t, h⟩ := step_next_of_running running
  by_cases goes_on : t.status = .running
  · obtain ⟨fetches, cfg, cnt⟩ := step_of_still_running h goes_on
    have below : s.cnt.instructions < n :=
      (limitReached_eq_false_iff s).1 fetches.below_limit n limit
    have ends : RunEndsWithin (n - t.cnt.instructions + 1) t :=
      runEndsWithin_of_maxSteps t goes_on (cfg ▸ limit)
    have left : n - s.cnt.instructions = n - t.cnt.instructions + 1 := by omega
    exact left ▸ runEndsWithin_of_step h ends
  · exact runEndsWithin_of_step h (runEndsWithin_of_ended goes_on _)
termination_by n - s.cnt.instructions

/-! ### The return through STOP -/

/-- Clearing bit 0 is rounding down to an even number (R191). -/
theorem clear_bit_zero (a : Word) :
    a &&& 0xFFFFFFFFFFFFFFFE#64 = BitVec.ofNat 64 (a.toNat / 2 * 2) := by
  calc a &&& 0xFFFFFFFFFFFFFFFE#64
    _ = a &&& BitVec.allOnes 64 <<< 1 := rfl
    _ = a >>> 1 <<< 1 := BitVec.shiftLeft_ushiftRight.symm
    _ = BitVec.ofNat 64 (a.toNat / 2 * 2) := BitVec.eq_of_toNat_eq (by
      simp only [BitVec.toNat_shiftLeft, BitVec.toNat_ushiftRight, BitVec.toNat_ofNat,
        Nat.shiftRight_eq_div_pow, Nat.shiftLeft_eq, pow_one])

/-- A `jalr` with immediate 0 through a register that holds an even address goes to that address. -/
theorem jalrTarget_zero_of_even {rs1 : RegIdx} {s : State} (even : (getReg rs1 s).toNat % 2 = 0) :
    jalrTarget rs1 0#12 s = getReg rs1 s := by
  have sum : getReg rs1 s + sext 0#12 = getReg rs1 s := BitVec.add_zero _
  have round : (getReg rs1 s).toNat / 2 * 2 = (getReg rs1 s).toNat := by omega
  rw [jalrTarget, sum, clear_bit_zero, round, BitVec.ofNat_toNat, BitVec.setWidth_eq]

/-- From a Running state at STOP the run delivers `x[10]` (R123, R129). -/
theorem endsNormally_of_at_stop {s : State} (running : s.status = .running)
    (at_stop : s.pc = s.cfg.stop) : EndsNormally s (getReg 10#5 s) :=
  ⟨1, _, run_succ_of_step (step_of_stop running at_stop) 0, rfl⟩

theorem endsNormally_of_step {s t : State} {v : Word} (h : step s = .next t)
    (ends : EndsNormally t v) : EndsNormally s v := by
  obtain ⟨k, u, run, delivered⟩ := ends
  exact ⟨k + 1, u, (run_succ_of_step h k).trans run, delivered⟩

end Sys2Proof.Machine
end

section
/-! The statements of spec/40_fetch_and_step.md settled from the lemmas above. -/

namespace Sys2Proof.Proofs.FetchAndStep

open Sys2Proof.Machine Sys2Proof.Safety

/-- Settles O39: every check, the fetch, the decoder and every handler answer a next state. -/
theorem runningAlwaysSteps : Obligations.RunningAlwaysSteps :=
  fun _ running => step_next_of_running running

/-- Settles O49: launch tests the constraints of R7 one by one; that STOP lies outside the code
segment is tested as lying before it or past it. -/
theorem launchChecksTheConfiguration : Obligations.LaunchChecksTheConfiguration := by
  refine ⟨?_, fun s p => ⟨relaunch_of_running p, relaunch_of_not_running p⟩⟩
  intro p c codeEnd stackEnd allowed
  have accepts : (cfgValid p.cfg && p.image.length == p.cfg.codeWords) = true ↔ allowed := by
    simp only [allowed, stackEnd, codeEnd, c, Bool.and_eq_true, beq_iff_eq, cfgValid_iff,
      isPowerOfTwo_iff, and_assoc, not_and_or, not_le, not_lt]
  exact ⟨fun h => if_pos (accepts.2 h), fun h => if_neg (mt accepts.1 h)⟩

/-- Settles O55: by recursion on the number of instructions left. -/
theorem stepLimitBoundsEveryRun : Obligations.StepLimitBoundsEveryRun :=
  fun s _ running limit => runEndsWithin_of_maxSteps s running limit

/-- Settles O56: the `jalr` goes to STOP, which is even, and writes its link into `x[1]` only; the
next step stops. -/
theorem returnToStopDeliversTheResult : Obligations.ReturnToStopDeliversTheResult := by
  intro s rd funct3 coherent ready stop_aligned decoded ra
  obtain ⟨regs, -, -, cfg, status, -, -⟩ := fetchWord_keeps (ready.fetchWord_eq coherent)
  have x1 : getReg 1#5 (fetched s) = s.cfg.stop := (getReg_congr regs 1#5).trans ra
  have target : jalrTarget 1#5 0#12 (fetched s) = s.cfg.stop :=
    (jalrTarget_zero_of_even (by rw [x1]; omega)).trans x1
  have returns : step s =
      .next (complete .jump s.cfg.stop (setReg 1#5 (nextPc (fetched s)) (fetched s))) := by
    rw [ready.step_of_instr coherent decoded, exec, execJalr, jump, target]
  have x10 : getReg 10#5 (setReg 1#5 (nextPc (fetched s)) (fetched s)) = getReg 10#5 s :=
    (getReg_setReg_of_ne (by decide) _ _).trans (getReg_congr regs 10#5)
  rw [← x10]
  exact endsNormally_of_step returns
    (endsNormally_of_at_stop (by simp [status, ready.running]) (by simp [cfg]))

/-- Settles O60: the error was raised in a state with the counters of the step's start. -/
theorem failingStepDeliversItsError : Obligations.FailingStepDeliversItsError := by
  intro s t h failed
  obtain ⟨e, u, reaches, rfl⟩ := raises_of_step_failed h failed
  obtain ⟨-, -, cnt, -⟩ := reaches.keeps
  exact ⟨e, rfl, by rw [result_of_failed rfl, raise_cnt, cnt, raise_err]⟩

/-- Settles O32: the coherent cache answers the code word at the pc. -/
theorem stepRunsTheDecodedInstruction : Obligations.StepRunsTheDecodedInstruction :=
  fun _ _ coherent ready decoded => ready.step_of_instr coherent decoded

/-- Settles O33: the STOP check comes first and is the only one that stops; an error leaves the pc
where it was, and an instruction that is no jump and no taken branch moves it by 4. -/
theorem stopEndsTheRun : Obligations.StopEndsTheRun := by
  refine ⟨fun s running at_stop => step_of_stop running at_stop,
    fun s t h => status_step_eq_stopped_iff h, ?_⟩
  intro s t h not_stop reaches_stop
  obtain ⟨at_stop, -⟩ | ⟨-, e, u, reaches, rfl⟩ | ⟨-, -, -, iw, u, i, hf, hd, hexec⟩ := step_ends h
  · exact absurd at_stop not_stop
  · obtain ⟨-, pc, -⟩ := reaches.keeps
    exact absurd (pc.symm.trans reaches_stop) not_stop
  · obtain ⟨-, pc, cnt, -⟩ := fetchWord_keeps hf
    obtain jumped | same | follows | branched := exec_jumps_or_flows hexec
    · exact .inr ⟨iw, u, i, hf, hd, .inl jumped⟩
    · exact absurd ((same.trans pc).symm.trans reaches_stop) not_stop
    · exact .inl (by rw [← reaches_stop, follows, nextPc, pc])
    · exact .inr ⟨iw, u, i, hf, hd, .inr (cnt ▸ branched)⟩

/-- Settles O34: the limit is tested after STOP and before the fetch. -/
theorem stepLimitFailsTheRun : Obligations.StepLimitFailsTheRun := by
  intro s n running not_stop max reached
  have limit : limitReached s = true := by simp [limitReached, max, reached]
  exact step_of_limit running not_stop limit

/-- Settles O59: by the status; the invariant gives a failed run its error record. -/
theorem resultFollowsTheStatus : Obligations.ResultFollowsTheStatus := by
  refine fun s inv => ⟨result_of_running, result_of_stopped, fun failed => ?_⟩
  obtain ⟨e, err⟩ := Option.ne_none_iff_exists'.1 (inv.err_iff.1 failed)
  exact ⟨e, err, by rw [result_of_failed failed, err]⟩

end Sys2Proof.Proofs.FetchAndStep
end

section
/-! What an instruction that writes one register does, its value read as arithmetic on numbers
(spec/41_r_arith.md R140 to R146). -/

namespace Sys2Proof.Machine

open Sys2Proof.Safety

/-! ### The effect of a register-writing handler -/

/-- A register write followed by the pc write and the count is the whole effect (R127, R128). -/
theorem completes_setReg (k : CountClass) (p : Word) (rd : RegIdx) (v : Word) (s : State) :
    Completes (.next (complete k p (setReg rd v s))) s (written s rd v) p (count k s.cnt)
      (sameBytes s) := by
  refine ⟨_, rfl, ?_⟩
  constructor
  case regs_eq => exact fun r => (getReg_complete ..).trans (getReg_setReg r rd v s)
  all_goals simp [sameBytes]

/-- An arithmetic handler writes its value `r`, under any reading `v` of it (R140). -/
theorem completes_writeResult {r v : Word} (value : r = v) (rd : RegIdx) (s : State) :
    Completes (writeResult rd r s) s (written s rd v) (s.pc + 4#64) (oneArithmetic s.cnt)
      (sameBytes s) :=
  value ▸ completes_setReg .arithmetic (nextPc s) rd r s

/-! ### Products and shifts as numbers -/

theorem mul_eq_ofNat {w : Nat} (a b : BitVec w) : a * b = BitVec.ofNat w (a.toNat * b.toNat) := by
  rw [BitVec.ofNat_mul, BitVec.ofNat_toNat, BitVec.ofNat_toNat, BitVec.setWidth_eq,
    BitVec.setWidth_eq]

theorem mul_eq_ofInt {w : Nat} (a b : BitVec w) : a * b = BitVec.ofInt w (a.toInt * b.toInt) := by
  rw [BitVec.ofInt_mul, BitVec.ofInt_toInt, BitVec.ofInt_toInt]

theorem shiftLeft_eq_ofNat {w : Nat} (a : BitVec w) (n : Nat) :
    a <<< n = BitVec.ofNat w (a.toNat * 2 ^ n) :=
  BitVec.eq_of_toNat_eq (by rw [BitVec.toNat_shiftLeft, BitVec.toNat_ofNat, Nat.shiftLeft_eq])

theorem ushiftRight_eq_ofNat {w : Nat} (a : BitVec w) (n : Nat) :
    a >>> n = BitVec.ofNat w (a.toNat / 2 ^ n) := by
  rw [← Nat.shiftRight_eq_div_pow, ← BitVec.toNat_ushiftRight, BitVec.ofNat_toNat,
    BitVec.setWidth_eq]

/-- The amount of `sll` and `srl` is the register modulo 64 (D9). -/
theorem shiftAmount6_eq (v : Word) : shiftAmount6 v = v.toNat % 64 :=
  (toNat_slice v 0 6).trans (by simp)

end Sys2Proof.Machine
end

section
/-! The statements of spec/41_r_arith.md settled from the lemmas above. -/

namespace Sys2Proof.Proofs.RArith

open Sys2Proof.Machine

/-- Settles O10: the word is the encoder's, and the handler writes the sum. -/
theorem addWritesTheSum : Obligations.AddWritesTheSum :=
  fun rd rs1 rs2 s =>
    ⟨decode_encode (i := .add rd rs1 rs2) rfl, completes_writeResult rfl rd s⟩

/-- Settles O11: the word is the encoder's, and the handler writes the difference. -/
theorem subWritesTheDifference : Obligations.SubWritesTheDifference :=
  fun rd rs1 rs2 s =>
    ⟨decode_encode (i := .sub rd rs1 rs2) rfl, completes_writeResult rfl rd s⟩

/-- Settles O12: multiplication modulo 2^64 is the low part of the product of the unsigned readings
and of the product of the signed readings. -/
theorem mulWritesTheLowProduct : Obligations.MulWritesTheLowProduct :=
  fun rd rs1 rs2 s =>
    ⟨decode_encode (i := .mul rd rs1 rs2) rfl, completes_writeResult (mul_eq_ofNat _ _) rd s,
      (mul_eq_ofNat _ _).symm.trans (mul_eq_ofInt _ _)⟩

/-- Settles O13: the amount is the register modulo 64, and a left shift multiplies by a power of
two. -/
theorem sllShiftsBySixBits : Obligations.SllShiftsBySixBits := by
  intro rd rs1 rs2 s
  have value : getReg rs1 s <<< shiftAmount6 (getReg rs2 s) =
      BitVec.ofNat 64 ((getReg rs1 s).toNat * 2 ^ ((getReg rs2 s).toNat % 64)) := by
    rw [shiftLeft_eq_ofNat, shiftAmount6_eq]
  exact ⟨decode_encode (i := .sll rd rs1 rs2) rfl, completes_writeResult value rd s⟩

/-- Settles O14: the amount is the register modulo 64, and a logical right shift divides by a power
of two. -/
theorem srlShiftsBySixBits : Obligations.SrlShiftsBySixBits := by
  intro rd rs1 rs2 s
  have value : getReg rs1 s >>> shiftAmount6 (getReg rs2 s) =
      BitVec.ofNat 64 ((getReg rs1 s).toNat / 2 ^ ((getReg rs2 s).toNat % 64)) := by
    rw [ushiftRight_eq_ofNat, shiftAmount6_eq]
  exact ⟨decode_encode (i := .srl rd rs1 rs2) rfl, completes_writeResult value rd s⟩

/-- Settles O15: the word is the encoder's, and the handler writes the conjunction. -/
theorem andWritesTheConjunction : Obligations.AndWritesTheConjunction :=
  fun rd rs1 rs2 s =>
    ⟨decode_encode (i := .and rd rs1 rs2) rfl, completes_writeResult rfl rd s⟩

end Sys2Proof.Proofs.RArith
end

section
/-! The shifts of class R64 read as arithmetic on numbers, and the word of a logical right shift,
which the class does not hold (spec/42_r64_word.md R150 to R152). -/

namespace Sys2Proof.Machine

/-- The amount of `sllw` and `sraw` is the register modulo 32 (R150). -/
theorem shiftAmount5_eq (v : Word) : shiftAmount5 v = v.toNat % 32 :=
  (toNat_slice v 0 5).trans (by simp)

theorem setWidth_signExtend {w v : Nat} (le : w ≤ v) (x : BitVec w) :
    (x.signExtend v).setWidth w = x := by
  rw [← BitVec.signExtend_eq_setWidth_of_le _ le, BitVec.signExtend,
    BitVec.toInt_signExtend_of_le le, BitVec.ofInt_toInt]

/-- An arithmetic right shift divides the signed value, rounding down. -/
theorem toInt_sshiftRight_eq_div {w : Nat} (x : BitVec w) (n : Nat) :
    (x.sshiftRight n).toInt = x.toInt / 2 ^ n := by
  rw [BitVec.toInt_sshiftRight, Int.shiftRight_eq_div_pow, Nat.cast_pow, Nat.cast_ofNat]

/-- Shifted at its own width or after its extension, a word has the same value, the quotient. -/
theorem sshiftRight_signExtend_eq_ofInt {w v : Nat} (le : w ≤ v) (x : BitVec w) (n : Nat) :
    (x.signExtend v).sshiftRight n = BitVec.ofInt v (x.toInt / 2 ^ n) := by
  rw [← BitVec.toInt_signExtend_of_le le, ← toInt_sshiftRight_eq_div, BitVec.ofInt_toInt]

/-- The quotient of a word fits the word, so that wider it is the extension of its own low part. -/
theorem ofInt_div_eq_signExtend_setWidth {w v : Nat} (le : w ≤ v) (x : BitVec w) (n : Nat) :
    BitVec.ofInt v (x.toInt / 2 ^ n) =
      ((BitVec.ofInt v (x.toInt / 2 ^ n)).setWidth w).signExtend v := by
  have fits : BitVec.ofInt v (x.toInt / 2 ^ n) = (x.sshiftRight n).signExtend v := by
    rw [BitVec.signExtend, toInt_sshiftRight_eq_div]
  rw [fits, setWidth_signExtend le]

/-- `sext_32(v[31:0])` extends the word that truncation leaves (R152). -/
theorem sextWord_eq (v : Word) : sextWord v = (v.setWidth 32).signExtend 64 := by
  rw [BitVec.setWidth_eq_extractLsb' (by decide)]
  rfl

end Sys2Proof.Machine

namespace Sys2Proof

/-- Of the right shifts, class R64 holds the arithmetic one only (R103, R110). -/
theorem decode_of_r64_shiftRight {iw : InstrWord} {f7 : BitVec 7}
    (hop : fieldOpcode iw = 0b0111011#7) (h3 : fieldFunct3 iw = 0b101#3)
    (h7 : fieldFunct7 iw = f7) (not_arithmetic : f7 ≠ 0b0100000#7) :
    decode iw = .illegal (.funct7 f7) := by
  rw [decode_of_classify (classify_of_opcode (f := .r64) hop), Format.select]
  simp [decodeR64, h3, h7, not_arithmetic]

/-- The word of `srlw` is illegal and names its funct7 (R152). -/
theorem decode_srlwWord (rd rs1 rs2 : RegIdx) :
    decode (rWord 0b0000000#7 rs2 rs1 0b101#3 rd 0b0111011#7) = .illegal (.funct7 0b0000000#7) :=
  decode_of_r64_shiftRight (fieldOpcode_rWord ..) (fieldFunct3_rWord ..) (fieldFunct7_rWord ..)
    (by decide)

end Sys2Proof
end

section
/-! The statements of spec/42_r64_word.md settled from the lemmas above. -/

namespace Sys2Proof.Proofs.RWord

open Sys2Proof.Machine

/-- Settles O16: the amount is the register modulo 32, and a left shift of all 64 bits multiplies by
a power of two. -/
theorem sllwShiftsAllBitsByFive : Obligations.SllwShiftsAllBitsByFive := by
  intro rd rs1 rs2 s
  have value : getReg rs1 s <<< shiftAmount5 (getReg rs2 s) =
      BitVec.ofNat 64 ((getReg rs1 s).toNat * 2 ^ ((getReg rs2 s).toNat % 32)) := by
    rw [shiftLeft_eq_ofNat, shiftAmount5_eq]
  exact ⟨decode_encode (i := .sllw rd rs1 rs2) rfl, completes_writeResult value rd s⟩

/-- Settles O17: the amount is the register modulo 32, and an arithmetic right shift of the extended
low word divides that word, whose quotient fits 32 bits. -/
theorem srawShiftsTheSignedWord : Obligations.SrawShiftsTheSignedWord := by
  intro rd rs1 rs2 s
  have value : (sextWord (getReg rs1 s)).sshiftRight (shiftAmount5 (getReg rs2 s)) =
      BitVec.ofInt 64 (((getReg rs1 s).setWidth 32).toInt / 2 ^ ((getReg rs2 s).toNat % 32)) := by
    rw [sextWord_eq, shiftAmount5_eq, sshiftRight_signExtend_eq_ofInt (by decide)]
  exact ⟨decode_encode (i := .sraw rd rs1 rs2) rfl, completes_writeResult value rd s,
    ofInt_div_eq_signExtend_setWidth (by decide) _ _, decode_srlwWord rd rs1 rs2⟩

end Sys2Proof.Proofs.RWord
end

section
/-! An immediate operand's sum as a signed number, and the words whose funct3 no instruction of the
class has (spec/43_i_arith.md R155 to R157). -/

namespace Sys2Proof.Machine

/-- An addition of a sign-extended immediate adds the signed values, modulo 2^64 (R9). -/
theorem add_sext_eq_ofInt {n : Nat} (a : Word) (imm : BitVec n) :
    a + sext imm = BitVec.ofInt 64 (a.toInt + imm.toInt) := by
  rw [BitVec.ofInt_add, BitVec.ofInt_toInt, sext, BitVec.signExtend]

end Sys2Proof.Machine

namespace Sys2Proof

open Sys2Proof.Safety

/-- A word of a class whose funct3 the class's table does not list is illegal and names funct3
(R102 to R107, R110). -/
theorem decode_of_illegal_funct3 {iw : InstrWord} {f : Format} {f3 : BitVec 3}
    (hop : fieldOpcode iw = f.opcode) (h3 : fieldFunct3 iw = f3)
    (not_legal : f3 ∉ legalFunct3 f) : decode iw = .illegal (.funct3 f3) := by
  subst h3
  have offends : offendingField iw = some (.funct3 (fieldFunct3 iw)) := by
    simp only [offendingField, classOf_fieldOpcode, classify_of_opcode hop]
    exact if_neg not_legal
  exact Decoded.eq_illegal_of_cause ((cause_decode iw).trans offends)

end Sys2Proof
end

section
/-! The statements of spec/43_i_arith.md settled from the lemmas above. -/

namespace Sys2Proof.Proofs.IArith

open Sys2Proof.Machine

/-- Settles O18: the word is the encoder's, and the sum with the extended immediate is the sum of
the signed values. -/
theorem addiAddsTheSignedImmediate : Obligations.AddiAddsTheSignedImmediate :=
  fun rd rs1 imm s =>
    ⟨decode_encode (i := .addi rd rs1 imm) rfl,
      completes_writeResult (add_sext_eq_ofInt (getReg rs1 s) imm) rd s⟩

/-- Settles O19: the word is the encoder's, a logical right shift divides by a power of two, and
the class does not list funct3 001. -/
theorem srliShiftsByFiveIgnoringTheRest : Obligations.SrliShiftsByFiveIgnoringTheRest :=
  fun ignored shamt rd rs1 s =>
    ⟨decode_encode (i := .srli rd rs1 shamt ignored) rfl,
      completes_writeResult (ushiftRight_eq_ofNat (getReg rs1 s) shamt.toNat) rd s,
      decode_of_illegal_funct3 (f := .iArith) (fieldOpcode_rWord ignored shamt rs1 0b001#3 rd _)
        (fieldFunct3_rWord ..) (by decide)⟩

end Sys2Proof.Proofs.IArith
end

section
/-! The bytes a load composes (spec/20_memory.md R54, R60), and the two things a load handler does:
it completes with the extended value in its register, or fails the run (spec/44_loads.md R160). -/

namespace Sys2Proof.Machine

open Sys2Proof.Safety

/-! ### The bytes read, composed little-endian -/

theorem ofNat_readBytes_one (m : Memory) (a : Nat) :
    BitVec.ofNat 8 (readBytes m a 1) = readByte m a := by
  simp [readBytes]

/-- One more byte at the low end: the byte at the lowest address becomes the low byte (R54). -/
theorem ofNat_readBytes_succ {m : Memory} {a n w : Nat} {high : BitVec w}
    (rest : BitVec.ofNat w (readBytes m (a + 1) n) = high) :
    BitVec.ofNat (w + 8) (readBytes m a (n + 1)) = high ++ readByte m a := by
  subst rest
  apply BitVec.eq_of_toNat_eq
  have low := (readByte m a).isLt
  have quotient : ((readByte m a).toNat + 256 * readBytes m (a + 1) n) / 2 ^ 8 =
      readBytes m (a + 1) n := by omega
  rw [toNat_append_add, BitVec.toNat_ofNat, BitVec.toNat_ofNat, readBytes, Nat.add_comm w 8,
    Nat.pow_add, Nat.mod_mul, quotient]
  omega

theorem ofNat_readBytes_four (m : Memory) (a : Nat) :
    BitVec.ofNat 32 (readBytes m a 4) =
      readByte m (a + 3) ++ readByte m (a + 2) ++ readByte m (a + 1) ++ readByte m a :=
  ofNat_readBytes_succ (ofNat_readBytes_succ (ofNat_readBytes_succ (ofNat_readBytes_one m (a + 3))))

theorem ofNat_readBytes_eight (m : Memory) (a : Nat) :
    BitVec.ofNat 64 (readBytes m a 8) =
      readByte m (a + 7) ++ readByte m (a + 6) ++ readByte m (a + 5) ++ readByte m (a + 4) ++
        readByte m (a + 3) ++ readByte m (a + 2) ++ readByte m (a + 1) ++ readByte m a :=
  ofNat_readBytes_succ (ofNat_readBytes_succ (ofNat_readBytes_succ
    (ofNat_readBytes_succ (ofNat_readBytes_four m (a + 4)))))

/-! ### The load handler -/

section
variable {n : Nat} {extend : Nat → Word} {rs1 : RegIdx} {imm : BitVec 12} {s : State}

/-- A load inside one segment writes the extended bytes, under any reading `v` of them, register
zero included (R160). -/
theorem completes_load {v : Word}
    (value : extend (readBytes s.mem (effectiveAddress rs1 imm s).toNat n) = v) (rd : RegIdx)
    (loadable : Loadable s (effectiveAddress rs1 imm s) n) :
    Completes (load n extend rd rs1 imm s) s (written s rd v) (s.pc + 4#64) (oneLoad s.cnt)
      (sameBytes s) := by
  rw [load_ok loadable, value]
  exact completes_setReg .load (nextPc s) rd v s

/-- A load outside the segments fails the run and changes nothing else, register zero included
(R160, R207). -/
theorem failsWith_load (rd : RegIdx) (outside : ¬ Loadable s (effectiveAddress rs1 imm s) n) :
    FailsWith (load n extend rd rs1 imm s) s
      (.memoryError .load (effectiveAddress rs1 imm s) n .outOfRange s.pc) :=
  load_error outside

end

end Sys2Proof.Machine
end

section
/-! The statements of spec/44_loads.md settled from the lemmas above. -/

namespace Sys2Proof.Proofs.Loads

open Sys2Proof.Machine

/-- Settles O20: the word is the encoder's, the class does not list funct3 100, and the one byte
read is extended. -/
theorem lbLoadsTheSignedByte : Obligations.LbLoadsTheSignedByte :=
  fun rd rs1 imm s =>
    ⟨decode_encode (i := .lb rd rs1 imm) rfl,
      decode_of_illegal_funct3 (f := .iLoad) (fieldOpcode_iWord imm rs1 0b100#3 rd _)
        (fieldFunct3_iWord ..) (by decide),
      rfl, completes_load (congrArg sext (ofNat_readBytes_one s.mem _)) rd, failsWith_load rd⟩

/-- Settles O21: the word is the encoder's, the class does not list funct3 110, and the four bytes
read compose little-endian to the word that is extended. -/
theorem lwLoadsTheSignedWord : Obligations.LwLoadsTheSignedWord :=
  fun rd rs1 imm s =>
    ⟨decode_encode (i := .lw rd rs1 imm) rfl,
      decode_of_illegal_funct3 (f := .iLoad) (fieldOpcode_iWord imm rs1 0b110#3 rd _)
        (fieldFunct3_iWord ..) (by decide),
      rfl, completes_load (congrArg sext (ofNat_readBytes_four s.mem _)) rd, failsWith_load rd⟩

/-- Settles O22: the word is the encoder's, and the eight bytes read compose little-endian to the
register's value. -/
theorem ldLoadsTheDoubleword : Obligations.LdLoadsTheDoubleword :=
  fun rd rs1 imm s =>
    ⟨decode_encode (i := .ld rd rs1 imm) rfl, rfl,
      completes_load (ofNat_readBytes_eight s.mem _) rd, failsWith_load rd⟩

end Sys2Proof.Proofs.Loads
end

section
/-! The word of an S layout written from the two pieces of its immediate (spec/30_encoding.md R94),
and the three things a store handler does: it completes with its bytes written, or fails the run on
the code segment or outside both segments (spec/45_stores.md R170). -/

namespace Sys2Proof

/-- A word an instruction encodes to decodes to it, however the word is written. -/
theorem decode_of_encode_eq {i : Instr} {iw : InstrWord} (h : i.wellFormed = true)
    (word : encode i = iw) : decode iw = .instr i :=
  word ▸ decode_encode h

/-- The S layout of an immediate in two pieces puts the pieces in the places of funct7 and rd
(R94). -/
theorem sWord_append (hi : BitVec 7) (lo : BitVec 5) (rs2 rs1 : RegIdx) (f3 : BitVec 3)
    (op : BitVec 7) : sWord (hi ++ lo) rs2 rs1 f3 op = rWord hi rs2 rs1 f3 lo op := by
  have high : (hi ++ lo).extractLsb' 5 7 = hi := BitVec.extractLsb'_append_eq_left
  have low : (hi ++ lo).extractLsb' 0 5 = lo := BitVec.extractLsb'_append_eq_right
  rw [sWord_eq, high, low]

end Sys2Proof

namespace Sys2Proof.Machine

open Sys2Proof.Safety

/-! ### The store handler -/

section
variable {n : Nat} {rs1 : RegIdx} {imm : BitVec 12} {s : State}

/-- A store in the stack segment writes the low `n` bytes of the register and nothing else (R61,
R170). -/
theorem completes_store (rs2 : RegIdx) (wf : Memory.wf s.mem)
    (storable : Storable s (effectiveAddress rs1 imm s) n) :
    Completes (store n rs2 rs1 imm s) s (sameRegs s) (s.pc + 4#64) (oneStore s.cnt)
      (stored s (effectiveAddress rs1 imm s).toNat n (getReg rs2 s)) := by
  obtain ⟨not_code, stack⟩ := storable
  refine ⟨_, store_ok not_code stack, ?_⟩
  constructor
  case bytes_eq => exact readByte_writeBytes wf _ n _
  all_goals intros; rfl

/-- A store wholly in the code segment fails the run and writes nothing (R58, R207). -/
theorem failsWith_store_of_inCode (rs2 : RegIdx)
    (code : inCode s.cfg (effectiveAddress rs1 imm s).toNat n = true) :
    FailsWith (store n rs2 rs1 imm s) s
      (.memoryError .store (effectiveAddress rs1 imm s) n .writeToCode s.pc) := by
  rw [store, memWrite_code code]
  rfl

/-- A store wholly in neither segment fails the run and writes nothing (R57, R207). -/
theorem failsWith_store_of_not_loadable (rs2 : RegIdx)
    (outside : ¬ Loadable s (effectiveAddress rs1 imm s) n) :
    FailsWith (store n rs2 rs1 imm s) s
      (.memoryError .store (effectiveAddress rs1 imm s) n .outOfRange s.pc) := by
  obtain ⟨not_code, not_stack⟩ := not_or.1 outside
  rw [store, memWrite_outOfRange (Bool.eq_false_of_not_eq_true not_code)
    (Bool.eq_false_of_not_eq_true not_stack)]
  rfl

end

end Sys2Proof.Machine
end

section
/-! The statements of spec/45_stores.md settled from the lemmas above. -/

namespace Sys2Proof.Proofs.Stores

open Sys2Proof.Machine

/-- Settles O23: the word is the encoder's, and the handler stores one byte or fails. -/
theorem sbStoresTheLowByte : Obligations.SbStoresTheLowByte :=
  fun hi lo rs2 rs1 _ =>
    ⟨decode_of_encode_eq rfl (sWord_append hi lo rs2 rs1 0b000#3 _), rfl,
      completes_store rs2, failsWith_store_of_inCode rs2, failsWith_store_of_not_loadable rs2⟩

/-- Settles O24: the word is the encoder's, and the handler stores four bytes or fails. -/
theorem swStoresTheLowWord : Obligations.SwStoresTheLowWord :=
  fun hi lo rs2 rs1 _ =>
    ⟨decode_of_encode_eq rfl (sWord_append hi lo rs2 rs1 0b010#3 _), rfl,
      completes_store rs2, failsWith_store_of_inCode rs2, failsWith_store_of_not_loadable rs2⟩

/-- Settles O25: the word is the encoder's, and the handler stores eight bytes or fails. -/
theorem sdStoresTheDoubleword : Obligations.SdStoresTheDoubleword :=
  fun hi lo rs2 rs1 _ =>
    ⟨decode_of_encode_eq rfl (sWord_append hi lo rs2 rs1 0b011#3 _), rfl,
      completes_store rs2, failsWith_store_of_inCode rs2, failsWith_store_of_not_loadable rs2⟩

end Sys2Proof.Proofs.Stores
end

section
/-! The word of a B layout written from the four pieces of its offset (spec/30_encoding.md R95), and
what the branch handler does on either outcome of its condition (spec/46_branches.md R180). -/

namespace Sys2Proof

/-- An offset assembled over a 0 is even, so that B and J words can encode it (R99, R100). -/
theorem append_zero_even {n : Nat} (high : BitVec n) : (!(high ++ 0#1).getLsbD 0) = true := by
  rw [BitVec.getLsbD_append]
  rfl

/-- The pieces of an assembled B offset are the bits the layout places (R95, R99). -/
theorem slices_bOffset (b12 b11 : BitVec 1) (b10 : BitVec 6) (b4 : BitVec 4) :
    (b12 ++ b11 ++ b10 ++ b4 ++ 0#1).extractLsb' 12 1 = b12 ∧
      (b12 ++ b11 ++ b10 ++ b4 ++ 0#1).extractLsb' 11 1 = b11 ∧
      (b12 ++ b11 ++ b10 ++ b4 ++ 0#1).extractLsb' 5 6 = b10 ∧
      (b12 ++ b11 ++ b10 ++ b4 ++ 0#1).extractLsb' 1 4 = b4 := by
  simp only [BitVec.extractLsb'_append_eq_of_le, Nat.reduceLeDiff, Nat.reduceSub,
    BitVec.extractLsb'_append_eq_right, BitVec.extractLsb'_eq_self, and_self]

/-- The B layout of an offset in four pieces puts the pieces in their places (R95). -/
theorem bWord_append (b12 b11 : BitVec 1) (b10 : BitVec 6) (b4 : BitVec 4) (rs2 rs1 : RegIdx)
    (f3 : BitVec 3) (op : BitVec 7) :
    bWord (b12 ++ b11 ++ b10 ++ b4 ++ 0#1) rs2 rs1 f3 op =
      b12 ++ b10 ++ rs2 ++ rs1 ++ f3 ++ b4 ++ b11 ++ op := by
  obtain ⟨bit12, bit11, bits10_5, bits4_1⟩ := slices_bOffset b12 b11 b10 b4
  rw [bWord, bit12, bits10_5, bits4_1, bit11]

end Sys2Proof

namespace Sys2Proof.Machine

open Sys2Proof.Safety

/-! ### The branch handler -/

/-- The pc write and the count alone write no register and no byte (R127, R128). -/
theorem completes_complete (k : CountClass) (p : Word) (s : State) :
    Completes (.next (complete k p s)) s (sameRegs s) p (count k s.cnt) (sameBytes s) := by
  refine ⟨_, rfl, ?_⟩
  constructor <;> intros <;> rfl

/-- A branch moves the pc and counts the outcome, under any reading `taken` of its condition `c`
(R180). -/
theorem completes_branch {c taken : Bool} (condition : c = taken) (offset : BitVec 13) (s : State) :
    Completes (branch c offset s) s (sameRegs s)
      (if taken then s.pc + offset.signExtend 64 else s.pc + 4#64) (oneBranch taken s.cnt)
      (sameBytes s) := by
  subst condition
  cases c with
  | true => exact completes_complete .branchTaken (relativeTarget offset s) s
  | false => exact completes_complete .branchNotTaken (nextPc s) s

/-- The condition of `bne` is inequality of the two values (R182). -/
theorem condNe_eq_decide (a b : Word) : condNe a b = decide (a ≠ b) :=
  decide_not.symm

end Sys2Proof.Machine
end

section
/-! The statements of spec/46_branches.md settled from the lemmas above. -/

namespace Sys2Proof.Proofs.Branches

open Sys2Proof.Machine

/-- Settles O26: the word is the encoder's, and the condition compares all 64 bits. -/
theorem beqBranchesOnEqual : Obligations.BeqBranchesOnEqual :=
  fun b12 b10 b4 b11 rs1 rs2 s =>
    ⟨decode_of_encode_eq (i := .beq rs1 rs2 _) (append_zero_even _)
      (bWord_append b12 b11 b10 b4 rs2 rs1 0b000#3 _), completes_branch rfl _ s⟩

/-- Settles O27: the word is the encoder's, and the condition is that of inequality. -/
theorem bneBranchesOnDifferent : Obligations.BneBranchesOnDifferent :=
  fun b12 b10 b4 b11 rs1 rs2 s =>
    ⟨decode_of_encode_eq (i := .bne rs1 rs2 _) (append_zero_even _)
      (bWord_append b12 b11 b10 b4 rs2 rs1 0b001#3 _), completes_branch (condNe_eq_decide _ _) _ s⟩

/-- Settles O28: the word is the encoder's, and the condition is the exact signed comparison. -/
theorem bltBranchesOnSignedLess : Obligations.BltBranchesOnSignedLess :=
  fun b12 b10 b4 b11 rs1 rs2 s =>
    ⟨decode_of_encode_eq (i := .blt rs1 rs2 _) (append_zero_even _)
      (bWord_append b12 b11 b10 b4 rs2 rs1 0b100#3 _), completes_branch rfl _ s⟩

/-- Settles O29: the word is the encoder's, and the condition is the signed comparison the other way
round, equality included. -/
theorem bgeBranchesOnSignedGreaterOrEqual : Obligations.BgeBranchesOnSignedGreaterOrEqual :=
  fun b12 b10 b4 b11 rs1 rs2 s =>
    ⟨decode_of_encode_eq (i := .bge rs1 rs2 _) (append_zero_even _)
      (bWord_append b12 b11 b10 b4 rs2 rs1 0b101#3 _), completes_branch rfl _ s⟩

end Sys2Proof.Proofs.Branches
end

section
/-! The word of a J layout written from the four pieces of its offset (spec/30_encoding.md R96), and
what the jump handler does (spec/47_jumps.md R190, R191). -/

namespace Sys2Proof

/-- The pieces of an assembled J offset are the bits the layout places (R96, R100). -/
theorem slices_jOffset (b20 b11 : BitVec 1) (b19 : BitVec 8) (b10 : BitVec 10) :
    (b20 ++ b19 ++ b11 ++ b10 ++ 0#1).extractLsb' 20 1 = b20 ∧
      (b20 ++ b19 ++ b11 ++ b10 ++ 0#1).extractLsb' 12 8 = b19 ∧
      (b20 ++ b19 ++ b11 ++ b10 ++ 0#1).extractLsb' 11 1 = b11 ∧
      (b20 ++ b19 ++ b11 ++ b10 ++ 0#1).extractLsb' 1 10 = b10 := by
  simp only [BitVec.extractLsb'_append_eq_of_le, Nat.reduceLeDiff, Nat.reduceSub,
    BitVec.extractLsb'_append_eq_right, BitVec.extractLsb'_eq_self, and_self]

/-- The J layout of an offset in four pieces puts the pieces in their places (R96). -/
theorem jWord_append (b20 b11 : BitVec 1) (b19 : BitVec 8) (b10 : BitVec 10) (rd : RegIdx)
    (op : BitVec 7) :
    jWord (b20 ++ b19 ++ b11 ++ b10 ++ 0#1) rd op = b20 ++ b10 ++ b11 ++ b19 ++ rd ++ op := by
  obtain ⟨bit20, bits19_12, bit11, bits10_1⟩ := slices_jOffset b20 b11 b19 b10
  rw [jWord, bit20, bits10_1, bit11, bits19_12]

end Sys2Proof

namespace Sys2Proof.Machine

open Sys2Proof.Safety

/-! ### The jump handler -/

/-- A jump goes to its target, under any reading `p` of it, and writes `pc + 4` into its link
register (R190, R191). -/
theorem completes_jump {target p : Word} (value : target = p) (link : RegIdx) (s : State) :
    Completes (jump link target s) s (written s link (s.pc + 4#64)) p (oneJump s.cnt)
      (sameBytes s) :=
  value ▸ completes_setReg .jump target link (nextPc s) s

end Sys2Proof.Machine
end

section
/-! The statements of spec/47_jumps.md settled from the lemmas above. -/

namespace Sys2Proof.Proofs.Jumps

open Sys2Proof.Machine

/-- Settles O30: the word is the encoder's, and the target is the pc plus the offset. -/
theorem jalLinksAndJumps : Obligations.JalLinksAndJumps :=
  fun b20 b10 b11 b19 rd s =>
    ⟨decode_of_encode_eq (i := .jal rd _) (append_zero_even _) (jWord_append b20 b11 b19 b10 rd _),
      completes_jump rfl rd s⟩

/-- Settles O31: the word is the encoder's, and clearing bit 0 of the target rounds it down to an
even number; the handler links into `rs1`. -/
theorem jalrLinksIntoItsSource : Obligations.JalrLinksIntoItsSource :=
  fun rd funct3 rs1 imm s =>
    ⟨decode_encode (i := .jalr rd funct3 rs1 imm) rfl,
      completes_jump (clear_bit_zero (getReg rs1 s + sext imm)) rs1 s⟩

end Sys2Proof.Proofs.Jumps
end

section
/-! The statements of spec/60_exceptions.md settled from the lemmas above. -/

namespace Sys2Proof.Proofs.Exceptions

open Sys2Proof.Machine Sys2Proof.Safety

/-- Settles O37: the coherent cache answers the code word at the pc, which the decoder refuses under
the field the tables name; the fetch left the pc where it was. -/
theorem illegalWordFailsTheRun : Obligations.IllegalWordFailsTheRun := by
  intro s cause coherent ready offends
  have fetch := ready.fetchWord_eq coherent
  have refused : decode (codeWord s.mem s.pc.toNat) = .illegal cause :=
    Decoded.eq_illegal_of_cause ((cause_decode _).trans offends)
  obtain ⟨-, pc, -⟩ := fetchWord_keeps fetch
  have fails := ready.fetches.step_of_illegal fetch refused
  rwa [pc] at fails

/-- Settles O40: the error was raised in the state at the start of the step or after its fetch, and
a fetch changes cache lines and trace only. -/
theorem errorsArePrecise : Obligations.ErrorsArePrecise := by
  intro s t h failed
  obtain ⟨running, -⟩ := step_cases h
  obtain ⟨e, u, reaches, rfl⟩ := raises_of_step_failed h failed
  obtain ⟨regs, pc, cnt, cfg, -, -, mem⟩ := reaches.keeps
  exact ⟨running, Option.some_ne_none e, getReg_congr regs, pc, mem, cnt, cfg⟩

end Sys2Proof.Proofs.Exceptions
end

section
/-! The cache over a whole run (spec/70_reset_and_hazards.md R236, spec/20_memory.md R73, R82): only
the fetch of a step changes lines and trace, and every line it makes valid leaves a miss event. -/

namespace Sys2Proof.Machine

open Sys2Proof.Safety

/-! ### Where a step changes the cache -/

/-- No instruction touches the cache (R82). -/
theorem exec_keeps_cache {i : Instr} {s t : State} (h : exec i s = .next t) :
    t.lines = s.lines ∧ t.trace = s.trace := by
  obtain ⟨_, _, _, _, eq, -⟩ | ⟨_, _, _, -, -, -, eq⟩ | ⟨_, eq⟩ := exec_cases i s <;>
    cases eq.symm.trans h <;> simp

/-- A step leaves the lines and the trace as they were, or as its fetch left them. -/
theorem step_cache {s t : State} (h : step s = .next t) :
    ∃ u, ReachesRaise s u ∧ t.lines = u.lines ∧ t.trace = u.trace := by
  obtain ⟨-, rfl⟩ | ⟨-, _, u, reaches, rfl⟩ | ⟨-, -, -, iw, u, _, hf, -, hexec⟩ := step_ends h
  · exact ⟨s, .inl rfl, rfl, rfl⟩
  · exact ⟨u, reaches, rfl, rfl⟩
  · exact ⟨u, .inr ⟨iw, hf⟩, exec_keeps_cache hexec⟩

/-! ### Valid lines were filled on a miss -/

/-- The tag of every valid line is the address of a miss event of the run. -/
def LinesTraced (s : State) : Prop :=
  ∀ l ∈ s.lines, l.valid = true → FetchEvent.miss l.tag ∈ s.trace

theorem linesTraced_congr {s t : State} (lines : t.lines = s.lines) (trace : t.trace = s.trace)
    (h : LinesTraced s) : LinesTraced t := by
  rwa [LinesTraced, lines, trace]

theorem linesTraced_emit {s : State} (e : FetchEvent) (h : LinesTraced s) :
    LinesTraced (emit e s) :=
  fun l hl valid => List.mem_cons_of_mem e (h l hl valid)

/-- A fill puts the address of its own event into the line (R73, R79). -/
theorem linesTraced_fillLine {s : State} {a : Word} (iw : InstrWord)
    (event : FetchEvent.miss a ∈ s.trace) (h : LinesTraced s) : LinesTraced (fillLine s a iw) := by
  intro l hl valid
  obtain old | rfl := List.mem_or_eq_of_mem_set hl
  · exact h l old valid
  · exact event

theorem linesTraced_fetchWord {a : Word} {s s' : State} {iw : InstrWord}
    (hf : fetchWord a s = .word iw s') (h : LinesTraced s) : LinesTraced s' := by
  obtain ⟨-, rfl⟩ | ⟨-, -, -, rfl⟩ := fetchWord_word hf
  · exact linesTraced_emit _ h
  · exact linesTraced_fillLine iw List.mem_cons_self (linesTraced_emit _ h)

theorem linesTraced_step {s t : State} (hstep : step s = .next t) (h : LinesTraced s) :
    LinesTraced t := by
  obtain ⟨u, rfl | ⟨iw, hf⟩, lines, trace⟩ := step_cache hstep
  · exact linesTraced_congr lines trace h
  · exact linesTraced_congr lines trace (linesTraced_fetchWord hf h)

/-- An address no miss event names is in no valid line. -/
theorem LinesTraced.lookup_eq_none {s : State} (h : LinesTraced s) {a : Word}
    (never_missed : FetchEvent.miss a ∉ s.trace) : lookup s a = none := by
  by_contra found
  obtain ⟨iw, hit⟩ := Option.ne_none_iff_exists'.1 found
  obtain ⟨l, hl, valid, rfl, -⟩ := lookup_some hit
  exact never_missed (h l (List.mem_of_getElem? hl) valid)

/-! ### Runs -/

/-- What every step keeps holds after every run. -/
theorem run_keeps {M : Host.Core} {P : M.State → Prop}
    (keeps : ∀ s t, M.step s = .next t → P s → P t) (k : Nat) {s t : M.State}
    (hrun : M.run k s = .next t) (h : P s) : P t := by
  induction k generalizing s with
  | zero =>
    cases hrun
    exact h
  | succ k ih =>
    cases hstep : M.step s with
    | next u => exact ih ((run_succ_of_step hstep k).symm.trans hrun) (keeps s u hstep h)
    | fault => simp [Host.Core.run, hstep] at hrun
    | refused => simp [Host.Core.run, hstep] at hrun

end Sys2Proof.Machine
end

section
/-! The statements of spec/70_reset_and_hazards.md settled from the lemmas above. -/

namespace Sys2Proof.Proofs.ResetAndHazards

open Sys2Proof.Machine

/-- Settles O51: with no valid line every valid line is traced, and every step of the run keeps
that. -/
theorem launchEmptiesTheCache : Obligations.LaunchEmptiesTheCache := by
  intro p s launched
  obtain ⟨-, -, rfl⟩ := launch_next launched
  have invalid : ∀ l ∈ (launchState p).lines, l.valid = false := fun _ => initCache_valid
  have traced : LinesTraced (launchState p) := fun l hl valid => by
    simp [invalid l hl] at valid
  refine ⟨⟨length_initCache .., invalid⟩, fun k t a run _ never_missed => ?_⟩
  have traced_after : LinesTraced t :=
    run_keeps (M := core) (fun _ _ => linesTraced_step) k run traced
  exact traced_after.lookup_eq_none never_missed

end Sys2Proof.Proofs.ResetAndHazards
end
